-- ==== Sys2Proof/Word.lean ====
section
/-! DEFINITION. The two number types of the machine (R9 of 00_scope.md): an address is a natural number below 100, a cell a
natural number below 10000. The spec fixes no bits (R10, R61), so neither type is a bit vector. -/

namespace Sys2Proof

/-- `Addr` of R9: the indices 0 to 99 of the memory. -/
abbrev Addr := Fin 100

/-- `Cell` of R9 and R20: a 4-decimal-digit value, 0 to 9999. -/
abbrev Cell := Fin 10000

/-- The cell congruent to `n` modulo 10000 ("arithmetic on it wraps modulo 10000", R20). -/
def Cell.ofNat (n : Nat) : Cell := ⟨n % 10000, Nat.mod_lt _ (by decide)⟩

/-- Every `Addr` is a `Cell` (R9). -/
def Addr.toCell (a : Addr) : Cell := ⟨a.val, Nat.lt_trans a.isLt (by decide)⟩

end Sys2Proof
end

