-- ==== Sys2Proof/Syntax.lean ====
section
/-! DEFINITION. The instructions: one constructor per row of spec/opcode_table.json, in the table's order. The machine has two
instructions, HALT and MOV (R92, R93 of 30_encoding.md); every other row names a class of MOV's operands (R94, R101) and
carries only the operand digits its pattern leaves free. Operands are plain natural numbers; WellFormed.lean says which
are addresses. -/

namespace Sys2Proof

/-- The rows of the opcode table. -/
inductive Instr where
  /-- HALT, word 0000 (R92, R131). -/
  | halt
  /-- MOV src, dst, word ssdd (R93, R133). -/
  | mov (src dst : Nat)
  /-- MOV.to_HALT, word ss00 (R145). -/
  | movToHalt (src : Nat)
  /-- MOV.to_PC, word ss01: jump (R137). -/
  | movToPc (src : Nat)
  /-- MOV.to_A, word ss02 (R139). -/
  | movToA (src : Nat)
  /-- MOV.to_B, word ss03 (R139). -/
  | movToB (src : Nat)
  /-- MOV.to_SUM, word ss04 (R140). -/
  | movToSum (src : Nat)
  /-- MOV.to_SUB, word ss05 (R140). -/
  | movToSub (src : Nat)
  /-- MOV.to_CMP, word ss06 (R140). -/
  | movToCmp (src : Nat)
  /-- MOV.to_TRN, word ss07 (R140). -/
  | movToTrn (src : Nat)
  /-- MOV.to_C, word ss08 (R139). -/
  | movToC (src : Nat)
  /-- MOV.to_OUT, word ss11: output (R138). -/
  | movToOut (src : Nat)
  /-- MOV.to_ROM, word ssdd with dst in 50..99 (R146). -/
  | movToRom (src dst : Nat)
  /-- MOV.from_HALT, word 00dd (R143). -/
  | movFromHalt (dst : Nat)
  /-- MOV.from_PC, word 01dd (R141). -/
  | movFromPc (dst : Nat)
  /-- MOV.from_SUM, word 04dd (R142). -/
  | movFromSum (dst : Nat)
  /-- MOV.from_SUB, word 05dd (R142). -/
  | movFromSub (dst : Nat)
  /-- MOV.from_CMP, word 06dd (R142). -/
  | movFromCmp (dst : Nat)
  /-- MOV.from_TRN, word 07dd (R142). -/
  | movFromTrn (dst : Nat)
  /-- MOV.from_IN, word 12dd: input (R144). -/
  | movFromIn (dst : Nat)
  /-- MOV.same, words 101, 202, ..., 9999 (R147). -/
  | movSame (x : Nat)
  /-- STOP, word 0001: the halt idiom (R97, R100). -/
  | stop
  /-- NOP, word 0909 (R100). -/
  | nop
deriving DecidableEq, Repr

/-- The source address the row's word carries (digits d3 d2 of R90; 0 for HALT, which has none). -/
def Instr.src : Instr → Nat
  | .halt => 0
  | .mov s _ => s
  | .movToHalt s => s
  | .movToPc s => s
  | .movToA s => s
  | .movToB s => s
  | .movToSum s => s
  | .movToSub s => s
  | .movToCmp s => s
  | .movToTrn s => s
  | .movToC s => s
  | .movToOut s => s
  | .movToRom s _ => s
  | .movFromHalt _ => 0
  | .movFromPc _ => 1
  | .movFromSum _ => 4
  | .movFromSub _ => 5
  | .movFromCmp _ => 6
  | .movFromTrn _ => 7
  | .movFromIn _ => 12
  | .movSame x => x
  | .stop => 0
  | .nop => 9

/-- The destination address the row's word carries (digits d1 d0 of R90; 0 for HALT, which has none). -/
def Instr.dst : Instr → Nat
  | .halt => 0
  | .mov _ d => d
  | .movToHalt _ => 0
  | .movToPc _ => 1
  | .movToA _ => 2
  | .movToB _ => 3
  | .movToSum _ => 4
  | .movToSub _ => 5
  | .movToCmp _ => 6
  | .movToTrn _ => 7
  | .movToC _ => 8
  | .movToOut _ => 11
  | .movToRom _ d => d
  | .movFromHalt d => d
  | .movFromPc d => d
  | .movFromSum d => d
  | .movFromSub d => d
  | .movFromCmp d => d
  | .movFromTrn d => d
  | .movFromIn d => d
  | .movSame x => x
  | .stop => 1
  | .nop => 9

end Sys2Proof
end

