-- ==== Sys2Proof/WellFormed.lean ====
section
/-! DEFINITION. Which instruction terms stand for words of the machine. `Instr.inRow` is the row's own condition in
spec/opcode_table.json (its pattern and its "where" object); the rows overlap by design (R101 of 30_encoding.md).
`Instr.canonical` picks one row for each word, the most specific one that matches it (DESIGN CHOICE, safe; entry 15):
fixed words, then source equal to destination, then the class of the destination, then the class of the source. -/

namespace Sys2Proof

/-- The condition the row of spec/opcode_table.json puts on its operands. -/
def Instr.inRow : Instr → Bool
  | .halt => true
  | .mov s d => decide (s < 100) && decide (d < 100) && decide (¬ (s = 0 ∧ d = 0))
  | .movToHalt s => decide (s < 100) && decide (s ≠ 0)
  | .movToPc s => decide (s < 100)
  | .movToA s => decide (s < 100)
  | .movToB s => decide (s < 100)
  | .movToSum s => decide (s < 100)
  | .movToSub s => decide (s < 100)
  | .movToCmp s => decide (s < 100)
  | .movToTrn s => decide (s < 100)
  | .movToC s => decide (s < 100)
  | .movToOut s => decide (s < 100)
  | .movToRom s d => decide (s < 100) && decide (50 ≤ d) && decide (d < 100)
  | .movFromHalt d => decide (d < 100) && decide (d ≠ 0)
  | .movFromPc d => decide (d < 100)
  | .movFromSum d => decide (d < 100)
  | .movFromSub d => decide (d < 100)
  | .movFromCmp d => decide (d < 100)
  | .movFromTrn d => decide (d < 100)
  | .movFromIn d => decide (d < 100)
  | .movSame x => decide (x < 100) && decide (x ≠ 0)
  | .stop => true
  | .nop => true

/-- A source no row of the table singles out: not 0, 1, 4 to 7 or 12 (second table of R94). -/
def plainSrc (s : Nat) : Bool :=
  decide (s ≠ 0) && decide (s ≠ 1) && !(decide (4 ≤ s) && decide (s ≤ 7)) && decide (s ≠ 12)

/-- A destination whose row is the plain store of R94: TMP, GP1, IN, RAM (9, 10, 12, 13 to 49). -/
def plainDst (d : Nat) : Bool :=
  decide (d = 9) || decide (d = 10) || (decide (12 ≤ d) && decide (d ≤ 49))

/-- No more specific row of the table matches the same word (entry 15). -/
def Instr.canonical : Instr → Bool
  | .halt => true
  | .mov s d => plainSrc s && plainDst d && decide (s ≠ d)
  | .movToHalt _ => true
  | .movToPc s => decide (s ≠ 0) && decide (s ≠ 1)
  | .movToA s => decide (s ≠ 2)
  | .movToB s => decide (s ≠ 3)
  | .movToSum s => decide (s ≠ 4)
  | .movToSub s => decide (s ≠ 5)
  | .movToCmp s => decide (s ≠ 6)
  | .movToTrn s => decide (s ≠ 7)
  | .movToC s => decide (s ≠ 8)
  | .movToOut s => decide (s ≠ 11)
  | .movToRom s d => decide (s ≠ d)
  | .movFromHalt d => plainDst d
  | .movFromPc d => plainDst d
  | .movFromSum d => plainDst d
  | .movFromSub d => plainDst d
  | .movFromCmp d => plainDst d
  | .movFromTrn d => plainDst d
  | .movFromIn d => plainDst d && decide (d ≠ 12)
  | .movSame x => decide (x ≠ 9)
  | .stop => true
  | .nop => true

/-- The terms the decoder answers: one for each of the 10000 words (R95). -/
def Instr.wellFormed (i : Instr) : Bool := i.inRow && i.canonical

end Sys2Proof
end

