-- ==== Sys2Proof/Decode.lean ====
section
/-! DEFINITION. The Instruction Decoder (R110 of 40_decoder_and_derived_unit.md), the row each word belongs to (R94, R101 of
30_encoding.md), and the encoder. A word is a natural number in decimal; nothing here is a bit field (R10, R61). -/

namespace Sys2Proof

/-- `decode(word) -> (src, dst)` of R110: pure, total, no bounds validation (R111). -/
def splitWord (w : Nat) : Nat × Nat := (w / 100, w % 100)

/-- `src*100 + dst` of R90. -/
def joinWord (src dst : Nat) : Nat := 100 * src + dst

/-- The row of a source by its class (second table of R94); `d` is a plain destination. -/
def classifySrc (s d : Nat) : Instr :=
  match s with
  | 0 => .movFromHalt d
  | 1 => .movFromPc d
  | 4 => .movFromSum d
  | 5 => .movFromSub d
  | 6 => .movFromCmp d
  | 7 => .movFromTrn d
  | 12 => .movFromIn d
  | _ => .mov s d

/-- The row of a destination by its class (first table of R94). -/
def classifyDst (s d : Nat) : Instr :=
  match d with
  | 0 => .movToHalt s
  | 1 => .movToPc s
  | 2 => .movToA s
  | 3 => .movToB s
  | 4 => .movToSum s
  | 5 => .movToSub s
  | 6 => .movToCmp s
  | 7 => .movToTrn s
  | 8 => .movToC s
  | 11 => .movToOut s
  | _ => if 50 ≤ d then .movToRom s d else classifySrc s d

/-- The most specific row of the table that the operands of a MOV word match (entry 15). -/
def classify (s d : Nat) : Instr :=
  if s = 0 ∧ d = 1 then .stop
  else if s = 9 ∧ d = 9 then .nop
  else if s = d then .movSame s
  else classifyDst s d

/-- The instruction a cell holds. Every cell value is one (R95): HALT is recognised on the whole word before decoding
(R92), any other word is a MOV. -/
def decodeCell (w : Cell) : Instr :=
  if w.val = 0 then .halt else classify (splitWord w.val).1 (splitWord w.val).2

/-- Why a number is no instruction word. -/
inductive DecodeError where
  /-- The number is above 9999, so no cell holds it (R111). Raised by `decode`; safe: the machine never asks it. -/
  | notACell
deriving DecidableEq, Repr

/-- The decoder on any natural number: what no cell can hold is rejected by name (R111). -/
def decode (w : Nat) : Except DecodeError Instr :=
  if h : w < 10000 then .ok (decodeCell ⟨w, h⟩) else .error .notACell

/-- The word of an instruction (R90, R92): HALT is 0, every other row is `src*100 + dst`. -/
def encode (i : Instr) : Nat := joinWord i.src i.dst

/-- The host's question about one word of the opcode table. The machine has no bits: `w` is read as the number the cell
holds, whatever `nbits` is (DESIGN CHOICE, safe; entry 16). -/
def decodeTableWord (_nbits w : Nat) : Option Instr :=
  match decode w with
  | .ok i => some i
  | .error _ => none

end Sys2Proof
end

