-- ==== Sys2Proof/Config.lean ====
section
/-! DEFINITION. The parameters of the machine: those the source fixes (R7 of 00_scope.md) and those it leaves open, at the
default the spec decides or gives (R8, 92_eei_decisions.md). -/

namespace Sys2Proof

/-! The reserved map of R21 (10_state.md): the cells that have a name. -/

/-- Cell 0, the halt sentinel (R22). -/
abbrev Reg.halt : Addr := 0
/-- Cell 1, the program counter (R23). -/
abbrev Reg.pc : Addr := 1
/-- Cell 2, operand register A (R24). -/
abbrev Reg.a : Addr := 2
/-- Cell 3, operand register B (R25). -/
abbrev Reg.b : Addr := 3
/-- Cell 4, derived register SUM (R26). -/
abbrev Reg.sum : Addr := 4
/-- Cell 5, derived register SUB (R27). -/
abbrev Reg.sub : Addr := 5
/-- Cell 6, derived register CMP (R28). -/
abbrev Reg.cmp : Addr := 6
/-- Cell 7, derived register TRN (R29). -/
abbrev Reg.trn : Addr := 7
/-- Cell 8, operand register C, the condition (R30). -/
abbrev Reg.c : Addr := 8
/-- Cell 9, scratch register TMP (R31). -/
abbrev Reg.tmp : Addr := 9
/-- Cell 10, general-purpose GP1 (R32). -/
abbrev Reg.gp1 : Addr := 10
/-- Cell 11, the output port OUT (R33). -/
abbrev Reg.out : Addr := 11
/-- Cell 12, the input port IN (R34). -/
abbrev Reg.inp : Addr := 12

namespace Config

/-- `MEM_SIZE` of R7. -/
abbrev memSize : Nat := 100

/-- `CELL_MOD` of R7. -/
abbrev cellMod : Nat := 10000

/-- `HIST_CAP` of R7: the capacity of the history buffer. -/
abbrev histCap : Nat := 100

/-- `ROM_BASE` of R7: the lowest program cell, and the lowest address a breakpoint may have (R48). -/
abbrev romBase : Nat := 50

/-- `RAM_TOP` + 1 of R7: how many cells the register reset writes, 0 to 49 (R252). -/
abbrev regCount : Nat := 50

/-- `PC_RESET` of R7. -/
abbrev pcReset : Cell := 50

/-- What a cell the memory does not list reads as. DESIGN CHOICE (unsafe; entry 2): the created memory is 0 wherever
R50 names no other value, so the canonical list leaves zeros out. -/
abbrev blank : Cell := 0

/-- The three readings of the program counter after a write to cell 1 (R137, conflict C1). -/
inductive PcWriteMode where
  /-- The written value plus one modulo 100, except that a written 0 stays 0: the reading R137 takes. -/
  | postIncrExceptZero
  /-- The written value plus one modulo 100, with no exception. -/
  | postIncrAlways
  /-- The written value itself. -/
  | noIncr
deriving DecidableEq, Repr

/-- `PC_WRITE_MODE` of R8. DESIGN CHOICE (the spec's own decision D2; unsafe; entry 5). -/
abbrev pcWriteMode : PcWriteMode := .postIncrExceptZero

/-- The two treatments of a direct edit at an address above 99 (R181, U1). -/
inductive InvalidAddrPolicy where
  /-- Signal `InvalidAddress`: what R181 picks. -/
  | reject
  /-- Return `Ok`: "ignored by the reference behavior". Nothing changes under either. -/
  | ignore
deriving DecidableEq, Repr

/-- `INVALID_ADDR_POLICY` of R8. DESIGN CHOICE (the spec's own decision D3; unsafe; entry 6). -/
abbrev invalidAddrPolicy : InvalidAddrPolicy := .reject

/-- `REG_SEED` of R8, the default seed of the register reset (R252): 50 in cell 1, 0 in every other of the cells 0 to 49.
The zeros of cells 9 to 49 are a DESIGN CHOICE (the spec's own decision D8; unsafe; entry 3). -/
def regSeed : List Cell := [0, pcReset] ++ List.replicate 48 0

/-- `SAMPLE_TOP` - `SAMPLE_BASE` + 1 of R7: how many cells the sample program occupies, 50 to 55. -/
abbrev sampleCount : Nat := 6

/-- The default of `SAMPLE_PROGRAM` of R8, the six words of cells 50 to 55. SAMPLE_PROGRAM itself is an argument of the
program reset and of the creation. DESIGN CHOICE (the default the spec gives the open parameter, D10; unsafe; entry 4). -/
def sampleProgram : List Cell := [209, 302, 903, 211, 311, 1]

end Config
end Sys2Proof
end

