-- ==== Sys2Proof/Machine/Memory.lean ====
section
/-! DEFINITION. The Memory Model (R20 of 10_state.md, R63 of 20_memory.md): 100 cells, read and written one whole cell at a time.
Held as a list of (address, cell) pairs in one canonical form: addresses strictly rising, no pair listed whose value is
what an unlisted cell reads as. The unit is the cell, not the byte (R60: "There are no bytes"), so the pairs carry a `Cell`
where `Host.Cell` carries a byte (DESIGN CHOICE, safe; entry 1). -/

namespace Sys2Proof.Machine

/-- One snapshot `M` of R11: the listed cells; every other cell holds `Config.blank`. -/
abbrev Memory := List (Addr × Cell)

/-- `M[a]` of R11; "`read(addr) -> value`" of R63. -/
def Memory.read : Memory → Addr → Cell
  | [], _ => Config.blank
  | (k, v) :: rest, a => if k = a then v else Memory.read rest a

/-- The snapshot without any pair for `a`. -/
def Memory.erase : Memory → Addr → Memory
  | [], _ => []
  | (k, v) :: rest, a => if k = a then Memory.erase rest a else (k, v) :: Memory.erase rest a

/-- The snapshot with a pair for `a` put before the first pair of a higher address. -/
def Memory.insert : Memory → Addr → Cell → Memory
  | [], a, v => [(a, v)]
  | (k, w) :: rest, a, v => if a < k then (a, v) :: (k, w) :: rest else (k, w) :: Memory.insert rest a v

/-- `M{a := v}` of R11; "`write(addr, value) -> newSnapshot`" of R63. Writing what an unlisted cell reads as removes the pair,
so the canonical form is kept. -/
def Memory.write (m : Memory) (a : Addr) (v : Cell) : Memory :=
  if v = Config.blank then m.erase a else (m.erase a).insert a v

/-- The canonical form: addresses strictly rising, no listed value that an unlisted cell reads as. -/
abbrev Memory.wf (m : Memory) : Prop :=
  m.Pairwise (fun x y => x.1 < y.1) ∧ Config.blank ∉ m.map Prod.snd

/-- The address a natural number is, if it is one: "`0 <= addr < 100`" (R63, R9). -/
def addrOf (n : Nat) : Option Addr :=
  if h : n < 100 then some ⟨n, h⟩ else none

/-- Writes a run of cells from address `start` up; what would lie above address 99 is dropped. -/
def Memory.writeRange : Nat → List Cell → Memory → Memory
  | _, [], m => m
  | start, v :: vs, m =>
    Memory.writeRange (start + 1) vs (match addrOf start with
      | some a => m.write a v
      | none => m)

/-- The 100 cells, cell 0 first (R80: the memory image). -/
def Memory.image (m : Memory) : List Cell := (List.finRange 100).map m.read

end Sys2Proof.Machine
end

