-- ==== Sys2Proof/Machine/Flags.lean ====
section
/-! DEFINITION. The Derived Register Unit (R112 to R119 of 40_decoder_and_derived_unit.md): adder, subtractor, comparator and
multiplexer over A, B, C, and `recompute`, which stores their outputs in cells 4 to 7. The machine has no other flags
(R39 of 10_state.md). -/

namespace Sys2Proof.Machine

/-- Adder (R112): `(a + b) mod 10000`. -/
def deriveSum (a b : Cell) : Cell := Cell.ofNat (a.val + b.val)

/-- Subtractor (R113): `(a - b + 10000) mod 10000`, the 10000 added first so that the naturals suffice (R9). -/
def deriveSub (a b : Cell) : Cell := Cell.ofNat (a.val + 10000 - b.val)

/-- Comparator (R114): 1 if `a > b`, else 0. -/
def deriveCmp (a b : Cell) : Cell := if b.val < a.val then 1 else 0

/-- Multiplexer (R115): `a` if `c ≠ 0`, else `b`. -/
def deriveTrn (a b c : Cell) : Cell := if c.val ≠ 0 then a else b

/-- The four outputs of the unit (R117). -/
structure Derived where
  sum : Cell
  sub : Cell
  cmp : Cell
  trn : Cell
deriving DecidableEq, Repr

/-- `derive(a, b, c) -> (SUM, SUB, CMP, TRN)` of R117. -/
def derive (a b c : Cell) : Derived :=
  { sum := deriveSum a b, sub := deriveSub a b, cmp := deriveCmp a b, trn := deriveTrn a b c }

/-- The unit's outputs for the A, B, C a snapshot holds (cells 2, 3, 8). -/
def Memory.derived (m : Memory) : Derived := derive (m.read Reg.a) (m.read Reg.b) (m.read Reg.c)

/-- `recompute(S) -> S'` of R118: cells 4 to 7 rewritten from cells 2, 3, 8 of the snapshot being built. -/
def Memory.recompute (m : Memory) : Memory :=
  (((m.write Reg.sum m.derived.sum).write Reg.sub m.derived.sub).write Reg.cmp m.derived.cmp).write Reg.trn m.derived.trn

/-- The derived-register invariant of R42 (10_state.md). -/
abbrev Memory.derivedOk (m : Memory) : Prop :=
  m.read Reg.sum = deriveSum (m.read Reg.a) (m.read Reg.b) ∧
  m.read Reg.sub = deriveSub (m.read Reg.a) (m.read Reg.b) ∧
  m.read Reg.cmp = deriveCmp (m.read Reg.a) (m.read Reg.b) ∧
  m.read Reg.trn = deriveTrn (m.read Reg.a) (m.read Reg.b) (m.read Reg.c)

end Sys2Proof.Machine
end

