-- ==== Sys2Proof/Machine/Resets.lean ====
section
/-! DEFINITION. What the two resets, a load and the creation make of a memory snapshot (R250 to R253 of
70_reset_and_hazards.md, R184 of 43_direct_edit_commands.md). The commands themselves are in Engine.lean. -/

namespace Sys2Proof.Machine

/-- The mode of the program reset (R253). -/
inductive ProgMode where
  /-- Cells 50 to 99 all zero. -/
  | zero
  /-- The sample program in cells 50 to 55, the rest of 50 to 99 zero. -/
  | sample
deriving DecidableEq, Repr

/-- The register reset of R252: cells 0 to 49 from the seed, then `recompute`. -/
def Memory.resetRegs (seed : List Cell) (m : Memory) : Memory := (m.writeRange 0 seed).recompute

/-- The program reset of R253: cells 50 to 99 zero, in sample mode the sample program from cell 50, then `recompute`.
`program` is SAMPLE_PROGRAM, an open parameter (R8, D10). -/
def Memory.resetProg (program : List Cell) (mode : ProgMode) (m : Memory) : Memory :=
  let zeroed := m.writeRange Config.romBase (List.replicate 50 0)
  match mode with
  | .zero => zeroed.recompute
  | .sample => (zeroed.writeRange Config.romBase program).recompute

/-- The bulk load of R184: all 100 cells from the image, then `recompute`. -/
def Memory.ofImage (image : List Cell) : Memory := (Memory.writeRange 0 image []).recompute

/-- The memory at creation, in the order of R250: every cell 0, the register defaults, the sample program. `seed` and
`program` are the open parameters REG_SEED and SAMPLE_PROGRAM (R8). -/
def Memory.created (seed program : List Cell) : Memory := Memory.resetProg program .sample (Memory.resetRegs seed [])

end Sys2Proof.Machine
end

