-- ==== Sys2Proof/Machine/State.lean ====
section
/-! DEFINITION. The state of the machine as plain data: the tuple `(M, H, OUTLOG, BP, RUNNING)` of R13 (00_scope.md), and
the model's own fields, which say where the run loop stands, which agent moves next and what the latest command answered. -/

namespace Sys2Proof.Machine

/-- A history entry, the record of seven fields of R46 (10_state.md). -/
structure Entry where
  pcBefore : Addr
  instrWord : Cell
  src : Addr
  dst : Addr
  valueSrcBeforeStep : Cell
  valueDstBeforeStep : Cell
  outBeforeStep : Cell
deriving DecidableEq, Repr

/-- What a command returns to the host. The three signals of R220 (60_exceptions.md) are the constructors `invalidAddress`,
`emptyHistory` and `haltedNoOp`. -/
inductive Result where
  /-- A STEP executed an instruction (R134). -/
  | stepped (src dst : Addr) (value : Cell)
  /-- Signal HaltedNoOp (R223). -/
  | haltedNoOp
  /-- Signal InvalidAddress (R221). -/
  | invalidAddress
  /-- Signal EmptyHistory (R222): STEP_BACK's "failure". -/
  | emptyHistory
  /-- STEP_BACK's "success" (R166). -/
  | success
  /-- A direct edit or a reset was done (R180, R184, R252, R253). -/
  | ok
  /-- The membership TOGGLE_BP returns (R200). -/
  | member (inSet : Bool)
  /-- The cell a host read returns (R186). -/
  | value (v : Cell)
deriving DecidableEq, Repr

/-- Why the run loop stopped (R203, R208 of 44_run_controller.md). -/
inductive StopReason where
  | halted
  | breakpoint
  | inputWait
  | cancelled
  | fault
deriving DecidableEq, Repr

/-- One turn of an agent: the commands of R12 that the host issues, and the run controller's own move (R203). Numbers the host
supplies are raw naturals, so that one out of range is refused and not silently wrapped (R185, entry 14). -/
inductive Turn where
  /-- The run controller moves once (no effect while the loop is stopped). -/
  | controller
  /-- STEP (R130). -/
  | step
  /-- STEP_BACK (R166). -/
  | stepBack
  /-- WRITE(addr, value) (R180). -/
  | write (addr value : Nat)
  /-- LOAD(image) (R184). -/
  | load (image : List Nat)
  /-- RESET_REGS(seed); no seed stands for the default REG_SEED (R252). -/
  | resetRegs (seed : Option (List Nat))
  /-- RESET_PROG(mode) with SAMPLE_PROGRAM; no program stands for the default words (R253, R8). -/
  | resetProg (mode : ProgMode) (program : Option (List Nat))
  /-- TOGGLE_BP(addr) (R200). -/
  | toggleBp (addr : Nat)
  /-- RUN (R202). -/
  | run
  /-- CANCEL (R209). -/
  | cancel
  /-- The host reads one cell of the snapshot (R77, R186). -/
  | read (addr : Nat)
deriving DecidableEq, Repr

/-- Why a step ends without a next state though the host's input is well typed. -/
inductive Fault where
  /-- Raised by the meaning of an instruction term whose operand is above 99, "an engine-level error" (R111, R63); no word
  decodes to such a term (R95), so no STEP raises it. Safe: the model stops. -/
  | addressOutOfRange
  /-- Raised by a manual STEP, STEP_BACK, WRITE, LOAD, RESET_REGS or RESET_PROG while RUNNING is true, which has no transition
  (R207, U11). Safe: the model says nothing of such a run. -/
  | manualWhileRunning
deriving DecidableEq, Repr

/-- Why the model has no meaning for what it was given. -/
inductive Refusal where
  /-- An instruction of the opcode table that has no meaning yet, by its mnemonic. Raised by exec's refused arms; safe. -/
  | notModelled (mnemonic : String)
  /-- Raised by WRITE with a value above 9999, which is no cell (R185, U7). Safe: nothing is claimed of such a run. -/
  | valueNotACell
  /-- Raised by LOAD with a list that is not 100 cells (R185, U7). Safe. -/
  | imageNotAnImage
  /-- Raised by RESET_REGS with a list that is not 50 cells (R252, R185). Safe. -/
  | seedNotASeed
  /-- Raised by RESET_PROG with a SAMPLE_PROGRAM that is not six cells (R253, R7, R185). Safe. -/
  | programNotSixCells
deriving DecidableEq, Repr

/-- The machine's state. -/
structure State where
  /-- `M`, the current published snapshot (R11, R20). -/
  mem : Memory
  /-- `H`, the history buffer, oldest entry first (R45). -/
  hist : List Entry
  /-- `OUTLOG`, the values emitted so far, oldest first (R47). -/
  outLog : List Cell
  /-- `BP`, the breakpoint set, as a list of rising addresses (R48). -/
  bp : List Addr
  /-- `RUNNING` (R49). -/
  running : Bool
  /-- The model's own: the run loop stands in the delay (e) of R203 (entry 12). -/
  atDelay : Bool
  /-- The model's own: "a CANCEL was requested" and the loop has not seen it yet (R203 (e), entry 12). -/
  cancelRequested : Bool
  /-- The model's own: the turns the agents take next, first one first (entry 11). -/
  schedule : List Turn
  /-- The model's own: what the latest command returned (R12, entry 10). -/
  result : Option Result
  /-- The model's own: the reason the run loop last reported (R203, entry 10). -/
  report : Option StopReason
deriving DecidableEq, Repr

/-- The state before any command (R50, column "Created"; R250), for the open parameters REG_SEED and SAMPLE_PROGRAM (R8). -/
def State.created (seed program : List Cell) : State :=
  { mem := Memory.created seed program
    hist := []
    outLog := []
    bp := []
    running := false
    atDelay := false
    cancelRequested := false
    schedule := []
    result := none
    report := none }

/-- The state before any command with the defaults the spec gives the two parameters (R8, R50). -/
def State.reset : State := State.created Config.regSeed Config.sampleProgram

end Sys2Proof.Machine
end

