-- ==== Sys2Proof/Machine/Operands.lean ====
section
/-! DEFINITION. The one operand form of the machine, absolute direct (R91 of 30_encoding.md, R148 of 41_step_mov_halt.md), the
program counter as an address, and the program counter's next value (R136, R137). -/

namespace Sys2Proof.Machine

/-- `M[a]` in the current snapshot (R11). -/
def State.cell (s : State) (a : Addr) : Cell := s.mem.read a

/-- `pc`, the value of cell 1 (R11, R38). -/
def State.pc (s : State) : Cell := s.cell Reg.pc

/-- The program counter as a fetch address, if it is one (R38, R132). -/
def State.pcAddr? (s : State) : Option Addr := addrOf s.pc.val

/-- The word the program counter points at, `M[pc]` (R11), if the counter is an address. -/
def State.word? (s : State) : Option Cell := s.pcAddr?.map s.cell

/-- `(p + 1) mod 100` (R136): the only arithmetic on the program counter (R116 (d)). -/
def advance (p : Cell) : Cell := Cell.ofNat ((p.val + 1) % 100)

/-- `nextpc(dst, p)` of R137 under each reading of PC_WRITE_MODE; `p` is what cell 1 holds after the instruction's write. -/
def nextPc (mode : Config.PcWriteMode) (dst : Addr) (p : Cell) : Cell :=
  match mode with
  | .postIncrExceptZero => if dst = Reg.pc ∧ p = 0 then 0 else advance p
  | .postIncrAlways => advance p
  | .noIncr => if dst = Reg.pc then p else advance p

end Sys2Proof.Machine
end

