-- ==== Sys2Proof/Machine/History.lean ====
section
/-! DEFINITION. The History Buffer's four operations (R160 to R163 of 42_history_and_undo.md): push, pop-last, isEmpty, clear. -/

namespace Sys2Proof.Machine

/-- The buffer as R160 gives it: a bounded sequence, oldest entry first. -/
abbrev History := List Entry

/-- `push` of R161: at capacity the oldest entry is dropped before the new one is appended. -/
def History.push (h : History) (e : Entry) : History :=
  if h.length = Config.histCap then h.drop 1 ++ [e] else h ++ [e]

/-- `pop_last` of R163: the newest entry and the rest, if there is one. -/
def History.popLast? (h : History) : Option (Entry × History) :=
  match h.getLast? with
  | some e => some (e, h.dropLast)
  | none => none

/-- `isEmpty` of R163. -/
def History.isEmpty (h : History) : Bool := h.length == 0

/-- `clear` of R163. -/
def History.clear (_h : History) : History := []

/-- The entry a MOV records, every field from the snapshot before the step (R130 step 4). -/
def entryOf (m : Memory) (pc src dst : Addr) : Entry :=
  { pcBefore := pc
    instrWord := Cell.ofNat (100 * src.val + dst.val)
    src := src
    dst := dst
    valueSrcBeforeStep := m.read src
    valueDstBeforeStep := m.read dst
    outBeforeStep := m.read Reg.out }

/-- What R46 and R51 (d) say of an entry's fields, the word is not 0 and holds the two addresses, and what R167 says of them:
an entry whose destination is cell 1 or cell 11 recorded that cell twice. -/
abbrev Entry.wf (e : Entry) : Prop :=
  (e.instrWord ≠ 0 ∧ e.src.val = e.instrWord.val / 100 ∧ e.dst.val = e.instrWord.val % 100) ∧
  (e.dst = Reg.pc → e.valueDstBeforeStep = e.pcBefore.toCell) ∧
  (e.dst = Reg.out → e.valueDstBeforeStep = e.outBeforeStep)

end Sys2Proof.Machine
end

