-- ==== Sys2Proof/Machine/Ops.lean ====
section
/-! DEFINITION. The shared operations of the meanings: delivering a result signal (which is all this machine has in place of
taking an exception: R220, R226 of 60_exceptions.md), moving a cell (steps 4 to 9 of R130 of 41_step_mov_halt.md), and
restoring from a history entry (R166 of 42_history_and_undo.md). -/

namespace Sys2Proof.Machine

/-- A command's result is delivered to the host. A signal saves nothing, changes no cell and sends control nowhere (R226): this
is the whole of it. -/
def State.answer (s : State) (r : Result) : State := { s with result := some r }

/-- The snapshot a MOV publishes: steps 5, 7 and 8 of R130. -/
def Memory.move (m : Memory) (src dst : Addr) : Memory :=
  let written := m.write dst (m.read src)
  (written.write Reg.pc (nextPc Config.pcWriteMode dst (written.read Reg.pc))).recompute

/-- The output log after a MOV: step 6 of R130, one event when the destination is OUT (R138). -/
def emitIfOut (log : List Cell) (dst : Addr) (v : Cell) : List Cell :=
  if dst = Reg.out then log ++ [v] else log

/-- The state a MOV at address `pc` leaves: the new snapshot, one history entry, the output event if any, the result of
R134. -/
def State.moved (s : State) (pc src dst : Addr) : State :=
  { s with
    mem := s.mem.move src dst
    hist := History.push s.hist (entryOf s.mem pc src dst)
    outLog := emitIfOut s.outLog dst (s.cell src)
    result := some (.stepped src dst (s.cell src)) }

/-- A MOV with both addresses known. With the program counter above 99 there is no instruction at it and the STEP signals
`InvalidAddress` (R132). -/
def moveCell (src dst : Addr) (s : State) : Host.Outcome State Fault Refusal :=
  match s.pcAddr? with
  | some pc => .next (s.moved pc src dst)
  | none => .next (s.answer .invalidAddress)

/-- A MOV with operands as an instruction term carries them; an operand above 99 is an engine-level error (R111). -/
def runMove (src dst : Nat) (s : State) : Host.Outcome State Fault Refusal :=
  match addrOf src, addrOf dst with
  | some a, some b => moveCell a b s
  | _, _ => .fault .addressOutOfRange

/-- The snapshot an undo publishes: the three restores of R166 and `recompute`. -/
def Memory.restore (m : Memory) (e : Entry) : Memory :=
  (((m.write Reg.pc e.pcBefore.toCell).write e.dst e.valueDstBeforeStep).write Reg.out e.outBeforeStep).recompute

/-- A direct edit publishes its snapshot and empties the history (R165, R180, R184, R252, R253); no output event (R187). -/
def State.edited (s : State) (m : Memory) : State :=
  { s with mem := m, hist := History.clear s.hist, result := some .ok }

/-- The cells a list of raw numbers is, if every one is a cell (R185). -/
def cellsOf : List Nat → Option (List Cell)
  | [] => some []
  | n :: ns =>
    if h : n < 10000 then
      match cellsOf ns with
      | some cs => some (⟨n, h⟩ :: cs)
      | none => none
    else none

/-- The same, of a list that must have `len` numbers (R80, R252). -/
def cellsOfLength (len : Nat) (ns : List Nat) : Option (List Cell) :=
  if ns.length = len then cellsOf ns else none

/-- The cells of an open parameter: the default where the host gives none, else what the host gives, if it is `len` cells
(R8, R185). -/
def cellsOrDefault (default : List Cell) (len : Nat) : Option (List Nat) → Option (List Cell)
  | none => some default
  | some ns => cellsOfLength len ns

/-- The run loop stops and reports why: `stop(reason)` of R203. -/
def State.stopLoop (s : State) (reason : StopReason) : State :=
  { s with running := false, atDelay := false, cancelRequested := false, report := some reason }

/-- Where `withFetchWord` may leave the counter: not in cells 1 to 8, whose content the placing would disturb. -/
def placeAt (s : State) : Addr :=
  match s.pcAddr? with
  | some a => if a.val = 0 ∨ 9 ≤ a.val then a else 50
  | none => 50

/-- The state with the word `w` where the next STEP fetches, and the next turn a STEP: the loop stopped, no turn scheduled
(entry 16). -/
def State.placeWord (s : State) (w : Cell) : State :=
  { s with
    mem := (s.mem.write Reg.pc (placeAt s).toCell).write (placeAt s) w
    running := false
    atDelay := false
    cancelRequested := false
    schedule := [] }

end Sys2Proof.Machine
end

