-- ==== Sys2Proof/Machine/Halt.lean ====
section
/-! DEFINITION. The meaning of HALT (R131 of 41_step_mov_halt.md). -/

namespace Sys2Proof.Machine

/-- HALT (R131): signal HaltedNoOp, "no history push, no mutation, no output"; the program counter does not advance. -/
def execHalt (s : State) : Host.Outcome State Fault Refusal := .next (s.answer .haltedNoOp)

end Sys2Proof.Machine
end

