-- ==== Sys2Proof/Machine/Move.lean ====
section
/-! DEFINITION. The meanings of MOV in general, of a cell moved to itself, and of the fixed words STOP and NOP (R133, R147, R97, R100). -/

namespace Sys2Proof.Machine

/-- MOV src, dst (R133): the destination gets the source's value, the counter advances, cells 4 to 7 are recomputed. -/
def execMov (src dst : Nat) (s : State) : Host.Outcome State Fault Refusal := runMove src dst s

/-- MOV x, x (R147): the cell is rewritten with its own value; for x = 11 an event is emitted all the same. -/
def execMovSame (x : Nat) (s : State) : Host.Outcome State Fault Refusal := runMove x x s

/-- STOP, word 1 (R97, R137): writes cell 0's value into the program counter, which stays 0 when that value is 0. -/
def execStop (s : State) : Host.Outcome State Fault Refusal := runMove 0 1 s

/-- NOP, word 909 (R100): MOV TMP, TMP. -/
def execNop (s : State) : Host.Outcome State Fault Refusal := runMove 9 9 s

end Sys2Proof.Machine
end

