-- ==== Sys2Proof/Machine/MoveFrom.lean ====
section
/-! DEFINITION. The meanings of MOV by the class of its source (second table of R94 of 30_encoding.md). -/

namespace Sys2Proof.Machine

/-- MOV HALT, dst (R143): clears dst while cell 0 holds 0. -/
def execMovFromHalt (dst : Nat) (s : State) : Host.Outcome State Fault Refusal := runMove 0 dst s

/-- MOV PC, dst (R141): the value is this instruction's own address. -/
def execMovFromPc (dst : Nat) (s : State) : Host.Outcome State Fault Refusal := runMove 1 dst s

/-- MOV SUM, dst (R142). -/
def execMovFromSum (dst : Nat) (s : State) : Host.Outcome State Fault Refusal := runMove 4 dst s

/-- MOV SUB, dst (R142). -/
def execMovFromSub (dst : Nat) (s : State) : Host.Outcome State Fault Refusal := runMove 5 dst s

/-- MOV CMP, dst (R142). -/
def execMovFromCmp (dst : Nat) (s : State) : Host.Outcome State Fault Refusal := runMove 6 dst s

/-- MOV TRN, dst (R142). -/
def execMovFromTrn (dst : Nat) (s : State) : Host.Outcome State Fault Refusal := runMove 7 dst s

/-- MOV IN, dst (R144): copies what cell 12 holds now; it neither waits nor clears it. -/
def execMovFromIn (dst : Nat) (s : State) : Host.Outcome State Fault Refusal := runMove 12 dst s

end Sys2Proof.Machine
end

