-- ==== Sys2Proof/Machine/MoveTo.lean ====
section
/-! DEFINITION. The meanings of MOV by the class of its destination (first table of R94 of 30_encoding.md). -/

namespace Sys2Proof.Machine

/-- MOV src, HALT (R145): cell 0 is written like any other (entry 7). -/
def execMovToHalt (src : Nat) (s : State) : Host.Outcome State Fault Refusal := runMove src 0 s

/-- MOV src, PC (R137): a jump; the next counter comes from the written value by `nextPc`. -/
def execMovToPc (src : Nat) (s : State) : Host.Outcome State Fault Refusal := runMove src 1 s

/-- MOV src, A (R139). -/
def execMovToA (src : Nat) (s : State) : Host.Outcome State Fault Refusal := runMove src 2 s

/-- MOV src, B (R139). -/
def execMovToB (src : Nat) (s : State) : Host.Outcome State Fault Refusal := runMove src 3 s

/-- MOV src, SUM (R140): the written value does not survive recomputation. -/
def execMovToSum (src : Nat) (s : State) : Host.Outcome State Fault Refusal := runMove src 4 s

/-- MOV src, SUB (R140). -/
def execMovToSub (src : Nat) (s : State) : Host.Outcome State Fault Refusal := runMove src 5 s

/-- MOV src, CMP (R140). -/
def execMovToCmp (src : Nat) (s : State) : Host.Outcome State Fault Refusal := runMove src 6 s

/-- MOV src, TRN (R140). -/
def execMovToTrn (src : Nat) (s : State) : Host.Outcome State Fault Refusal := runMove src 7 s

/-- MOV src, C (R139). -/
def execMovToC (src : Nat) (s : State) : Host.Outcome State Fault Refusal := runMove src 8 s

/-- MOV src, OUT (R138): one output event carrying the value. -/
def execMovToOut (src : Nat) (s : State) : Host.Outcome State Fault Refusal := runMove src 11 s

/-- MOV src, dst with dst a program cell (R146): a plain store (entry 8). -/
def execMovToRom (src dst : Nat) (s : State) : Host.Outcome State Fault Refusal := runMove src dst s

end Sys2Proof.Machine
end

