-- ==== Sys2Proof/Machine/Dispatch.lean ====
section
/-! DEFINITION. One arm per constructor of Instr, each one call of its meaning. -/

namespace Sys2Proof.Machine

def exec (i : Instr) (s : State) : Host.Outcome State Fault Refusal :=
  match i with
  | .halt => Sys2Proof.Machine.execHalt s
  | .mov src dst => Sys2Proof.Machine.execMov src dst s
  | .movToHalt src => Sys2Proof.Machine.execMovToHalt src s
  | .movToPc src => Sys2Proof.Machine.execMovToPc src s
  | .movToA src => Sys2Proof.Machine.execMovToA src s
  | .movToB src => Sys2Proof.Machine.execMovToB src s
  | .movToSum src => Sys2Proof.Machine.execMovToSum src s
  | .movToSub src => Sys2Proof.Machine.execMovToSub src s
  | .movToCmp src => Sys2Proof.Machine.execMovToCmp src s
  | .movToTrn src => Sys2Proof.Machine.execMovToTrn src s
  | .movToC src => Sys2Proof.Machine.execMovToC src s
  | .movToOut src => Sys2Proof.Machine.execMovToOut src s
  | .movToRom src dst => Sys2Proof.Machine.execMovToRom src dst s
  | .movFromHalt dst => Sys2Proof.Machine.execMovFromHalt dst s
  | .movFromPc dst => Sys2Proof.Machine.execMovFromPc dst s
  | .movFromSum dst => Sys2Proof.Machine.execMovFromSum dst s
  | .movFromSub dst => Sys2Proof.Machine.execMovFromSub dst s
  | .movFromCmp dst => Sys2Proof.Machine.execMovFromCmp dst s
  | .movFromTrn dst => Sys2Proof.Machine.execMovFromTrn dst s
  | .movFromIn dst => Sys2Proof.Machine.execMovFromIn dst s
  | .movSame x => Sys2Proof.Machine.execMovSame x s
  | .stop => Sys2Proof.Machine.execStop s
  | .nop => Sys2Proof.Machine.execNop s

end Sys2Proof.Machine
end

