-- ==== Sys2Proof/Machine/Engine.lean ====
section
/-! DEFINITION. The engine's commands: STEP (R130 of 41_step_mov_halt.md), STEP_BACK (R166 of 42_history_and_undo.md), the direct
edits WRITE and LOAD (43_direct_edit_commands.md), the resets (R252, R253 of 70_reset_and_hazards.md), a host read (R186) and
the creation from a stored image (R250). -/

namespace Sys2Proof.Machine

/-- STEP (R130): fetch at the program counter, decode, run. A counter above 99 signals `InvalidAddress` (R132), a word 0
decodes to HALT (R131). -/
def commandStep (s : State) : Host.Outcome State Fault Refusal :=
  match s.word? with
  | some w => exec (decodeCell w) s
  | none => .next (s.answer .invalidAddress)

/-- STEP_BACK (R166): restore from the newest history entry, or signal `EmptyHistory` (R222). No event is emitted or
retracted (entry 18). -/
def commandStepBack (s : State) : Host.Outcome State Fault Refusal :=
  match History.popLast? s.hist with
  | some (e, rest) => .next { s with mem := s.mem.restore e, hist := rest, result := some .success }
  | none => .next (s.answer .emptyHistory)

/-- The answer to a direct edit at an address above 99: nothing changes, the history included (R181). -/
def invalidEditResult (policy : Config.InvalidAddrPolicy) : Result :=
  match policy with
  | .reject => .invalidAddress
  | .ignore => .ok

/-- WRITE(addr, value) (R180 to R183). A value above 9999 is no cell and is refused at the boundary (R185, entry 14). -/
def commandWrite (addr value : Nat) (s : State) : Host.Outcome State Fault Refusal :=
  if h : value < 10000 then
    match addrOf addr with
    | some a => .next (s.edited (s.mem.write a ⟨value, h⟩).recompute)
    | none => .next (s.answer (invalidEditResult Config.invalidAddrPolicy))
  else .refused .valueNotACell

/-- LOAD(image) (R184): all 100 cells, as given; cells 4 to 7 of the image are overwritten by `recompute`. -/
def commandLoad (image : List Nat) (s : State) : Host.Outcome State Fault Refusal :=
  match cellsOfLength Config.memSize image with
  | some cells => .next (s.edited (Memory.ofImage cells))
  | none => .refused .imageNotAnImage

/-- RESET_REGS(seed) (R252), with REG_SEED's default when no seed is given. -/
def commandResetRegs (seed : Option (List Nat)) (s : State) : Host.Outcome State Fault Refusal :=
  match cellsOrDefault Config.regSeed Config.regCount seed with
  | some cells => .next (s.edited (s.mem.resetRegs cells))
  | none => .refused .seedNotASeed

/-- RESET_PROG(mode) (R253), with SAMPLE_PROGRAM's default when no program is given. -/
def commandResetProg (mode : ProgMode) (program : Option (List Nat)) (s : State) : Host.Outcome State Fault Refusal :=
  match cellsOrDefault Config.sampleProgram Config.sampleCount program with
  | some cells => .next (s.edited (s.mem.resetProg cells mode))
  | none => .refused .programNotSixCells

/-- The host reads one cell (R77, R186); an address above 99 is rejected. -/
def commandRead (addr : Nat) (s : State) : Host.Outcome State Fault Refusal :=
  match addrOf addr with
  | some a => .next (s.answer (.value (s.cell a)))
  | none => .next (s.answer .invalidAddress)

/-- Creation (R250) with the parameters REG_SEED and SAMPLE_PROGRAM: with the sample program, or, if the storage port
returned an image, with a LOAD of it. An absent image means that no LOAD is issued (R79). -/
def createdWith (seed program : List Cell) (stored : Option (List Nat)) : Host.Outcome State Fault Refusal :=
  match stored with
  | none => .next (State.created seed program)
  | some image => commandLoad image (State.created seed program)

end Sys2Proof.Machine
end

