-- ==== Sys2Proof/Machine/Controller.lean ====
section
/-! DEFINITION. The Breakpoint and Run Controller (44_run_controller.md): TOGGLE_BP, RUN, CANCEL, the moves of the run loop of
R203, and the turn an agent takes. -/

namespace Sys2Proof.Machine

/-- The set with `a` added if absent, removed if present (R200); kept as a list of rising addresses. -/
def toggleMember (bp : List Addr) (a : Addr) : List Addr :=
  if a ∈ bp then bp.erase a else bp.orderedInsert (· ≤ ·) a

/-- TOGGLE_BP(addr) (R200); outside 50..99 it is rejected (R201). -/
def commandToggleBp (addr : Nat) (s : State) : Host.Outcome State Fault Refusal :=
  match addrOf addr with
  | some a =>
    if Config.romBase ≤ a.val then
      .next { s with bp := toggleMember s.bp a, result := some (.member (decide (a ∉ s.bp))) }
    else .next (s.answer .invalidAddress)
  | none => .next (s.answer .invalidAddress)

/-- RUN (R202): starts the loop if it is not running, else no effect. The spec gives it no result (entry 26). -/
def commandRun (s : State) : Host.Outcome State Fault Refusal :=
  if s.running then .next s
  else .next { s with running := true, atDelay := false, cancelRequested := false }

/-- CANCEL (R209): requests that the loop stop; no effect while it is not running. -/
def commandCancel (s : State) : Host.Outcome State Fault Refusal :=
  if s.running then .next { s with cancelRequested := true } else .next s

/-- "the new PC is in the breakpoint set" (R203 (c)). -/
def State.atBreakpoint (s : State) : Bool := s.bp.any fun a => a.val == s.pc.val

/-- "the instruction just executed had `src == IN`" (R203 (d)), read from the step's result (R134). -/
def State.readInput (s : State) : Bool :=
  match s.result with
  | some (.stepped src _ _) => src == Reg.inp
  | _ => false

/-- Points (c) and (d) of R203, in that order (R205, R225), and else the delay (e). -/
def afterLoopStep (s : State) : State :=
  if s.atBreakpoint then s.stopLoop .breakpoint
  else if s.readInput then s.stopLoop .inputWait
  else { s with atDelay := true }

/-- Points (a) to (d) of one iteration of the run loop (R203). -/
def loopIteration (s : State) : Host.Outcome State Fault Refusal :=
  match s.word? with
  | none => .next (s.stopLoop .fault)
  | some w =>
    if w = 0 then .next (s.stopLoop .halted)
    else
      match commandStep s with
      | .next t => .next (afterLoopStep t)
      | .fault r => .fault r
      | .refused r => .refused r

/-- Point (e) of the run loop (R203, R209): the end of the delay, the one point where a CANCEL is seen. -/
def delayBoundary (s : State) : State :=
  if s.cancelRequested then s.stopLoop .cancelled else { s with atDelay := false }

/-- One move of the run controller: none while the loop is stopped, the end of the delay, or an iteration's (a) to (d)
(entry 12). -/
def controllerMove (s : State) : Host.Outcome State Fault Refusal :=
  if s.running then
    if s.atDelay then .next (delayBoundary s) else loopIteration s
  else .next s

/-- A manual command has no transition while the run loop is active (R207, R263). -/
def whenStopped (s : State) (command : State → Host.Outcome State Fault Refusal) : Host.Outcome State Fault Refusal :=
  if s.running then .fault .manualWhileRunning else command s

/-- One turn of an agent (R12, R269). -/
def takeTurn (t : Turn) (s : State) : Host.Outcome State Fault Refusal :=
  match t with
  | .controller => controllerMove s
  | .step => whenStopped s commandStep
  | .stepBack => whenStopped s commandStepBack
  | .write addr value => whenStopped s (commandWrite addr value)
  | .load image => whenStopped s (commandLoad image)
  | .resetRegs seed => whenStopped s (commandResetRegs seed)
  | .resetProg mode program => whenStopped s (commandResetProg mode program)
  | .toggleBp addr => commandToggleBp addr s
  | .run => commandRun s
  | .cancel => commandCancel s
  | .read addr => commandRead addr s

/-- The turn taken when the schedule is empty: the run controller moves while the loop is active, else the host issues STEP
(DESIGN CHOICE, safe; entry 11). -/
def State.defaultTurn (s : State) : Turn := if s.running then .controller else .step

end Sys2Proof.Machine
end

