-- ==== Sys2Proof/Machine/Step.lean ====
section
/-! DEFINITION. One transition of the machine: the next scheduled turn, or the default one. -/

namespace Sys2Proof.Machine

/-- One atomic transition (R12): the first turn of the schedule, or the default turn when none is scheduled (entry 11). -/
def step (s : State) : Host.Outcome State Fault Refusal :=
  match s.schedule with
  | [] => takeTurn s.defaultTurn s
  | t :: rest => takeTurn t { s with schedule := rest }

/-- The state in which the next step fetches and runs the word `w`; a number that is no cell leaves the state as it is
(entry 16). -/
def State.withFetchWord (s : State) (_nbits w : Nat) : State :=
  if h : w < 10000 then s.placeWord ⟨w, h⟩ else s

end Sys2Proof.Machine
end

