-- ==== Sys2Proof/Safety.lean ====
section
/-! DEFINITION. What statements about the machine are phrased in: the state invariants of R51 (10_state.md), the halted
condition and the end of a run (R131, R271), what is derived for observers (R77), chains of executed instructions and of
undos (R164, R168), and the cell contents the rules give a MOV, an edit and an undo, written cell by cell. -/

namespace Sys2Proof.Machine

/-- The halted condition (R15, R131, R271): the counter is an address and the word there is 0. -/
abbrev State.halted (s : State) : Prop := s.word? = some 0

/-- The fault state of R267 and R271: the counter is above 99. -/
abbrev State.pcInvalid (s : State) : Prop := 99 < s.pc.val

/-- The breakpoint set is a set of program cells, listed in rising order (R48, R51 (e)). -/
abbrev bpWf (bp : List Addr) : Prop := bp.Pairwise (· < ·) ∧ ∀ a ∈ bp, Config.romBase ≤ a.val

/-- The state invariants of R51 (a cell's range, R51 (a), is its type), with the canonical form of memory and with the run
loop's own fields clear while the loop is stopped. -/
structure State.Inv (s : State) : Prop where
  memWf : s.mem.wf
  derived : s.mem.derivedOk
  histBound : s.hist.length ≤ Config.histCap
  histEntries : ∀ e ∈ s.hist, e.wf
  bpSet : bpWf s.bp
  loopStopped : s.running = false → s.atDelay = false ∧ s.cancelRequested = false

/-- The observer's "pointers" (R77): the counter, the word it points at, and that word's instruction. -/
def State.pointers (s : State) : Cell × Option Cell × Option Instr := (s.pc, s.word?, s.word?.map decodeCell)

/-- An address outside the derived register file (cells 4 to 7, R41). -/
abbrev notDerived (a : Addr) : Prop := a ≠ Reg.sum ∧ a ≠ Reg.sub ∧ a ≠ Reg.cmp ∧ a ≠ Reg.trn

/-- What cell `a` holds once cells 4 to 7 follow A, B, C (R42), where `f` gives the other cells. -/
def derivedCell (f : Addr → Cell) (a : Addr) : Cell :=
  if a = Reg.sum then deriveSum (f Reg.a) (f Reg.b)
  else if a = Reg.sub then deriveSub (f Reg.a) (f Reg.b)
  else if a = Reg.cmp then deriveCmp (f Reg.a) (f Reg.b)
  else if a = Reg.trn then deriveTrn (f Reg.a) (f Reg.b) (f Reg.c)
  else f a

/-- One STEP that executes an instruction: the counter is an address, the word there is not 0 (R131, R135). -/
inductive Executes : State → State → Prop where
  | intro {s t : State} (w : Cell) (hw : s.word? = some w) (nonzero : w ≠ 0) (h : commandStep s = .next t) : Executes s t

/-- `n` executed instructions in a row, with no other command between them (R168). -/
inductive ExecutedSteps : Nat → State → State → Prop where
  | none (s : State) : ExecutedSteps 0 s s
  | more {n : Nat} {s t u : State} (first : ExecutedSteps n s t) (last : Executes t u) : ExecutedSteps (n + 1) s u

/-- `n` STEP_BACK commands in a row, each with result Success (R164). -/
inductive Undone : Nat → State → State → Prop where
  | none (s : State) : Undone 0 s s
  | more {n : Nat} {s t u : State} (h : commandStepBack s = .next t) (ok : t.result = some .success)
      (rest : Undone n t u) : Undone (n + 1) s u

/-- The turn a step takes: the first one scheduled, or the default one (entry 11). -/
def State.turnTaken (s : State) : Turn :=
  match s.schedule with
  | [] => s.defaultTurn
  | t :: _ => t

/-- The fields an instruction never touches (R44, R229): the controller's, and the turns still to come. -/
def State.sameOutside (s t : State) : Prop :=
  t.bp = s.bp ∧ t.running = s.running ∧ t.atDelay = s.atDelay ∧ t.cancelRequested = s.cancelRequested ∧
  t.schedule = s.schedule ∧ t.report = s.report

/-- The whole effect of a MOV of `src` to `dst` executed at address `pc` (R130, R133), as the rules state it: the counter (R136,
R137), every cell but cell 1 and cells 4 to 7, the derived cells (R42), the entry pushed (R135, R161), the event (R138),
the result (R134), and that nothing outside changes (R44). -/
structure MovEffect (s t : State) (pc src dst : Addr) : Prop where
  counter : t.pc.val =
    if dst = Reg.pc then (if (s.cell src).val = 0 then 0 else ((s.cell src).val + 1) % 100) else (pc.val + 1) % 100
  cells : ∀ a, a ≠ Reg.pc → notDerived a → t.cell a = if a = dst then s.cell src else s.cell a
  derived : t.mem.derivedOk
  history : t.hist = (if s.hist.length = 100 then s.hist.tail else s.hist) ++
    [{ pcBefore := pc, instrWord := Cell.ofNat (100 * src.val + dst.val), src := src, dst := dst,
       valueSrcBeforeStep := s.cell src, valueDstBeforeStep := s.cell dst, outBeforeStep := s.cell Reg.out }]
  output : t.outLog = if dst = Reg.out then s.outLog ++ [s.cell src] else s.outLog
  answer : t.result = some (.stepped src dst (s.cell src))
  outside : s.sameOutside t

end Sys2Proof.Machine
end

