-- ==== Sys2Proof/Certificates/Slice0/Obligations.lean ====
section
/-! DEFINITION. The statements for the provers, in the order of OBLIGATIONS.json. `MovEffect`, `Executes`, `ExecutedSteps`,
`Undone`, `notDerived` and the invariant `State.Inv` are in Safety.lean. -/

open Sys2Proof Sys2Proof.Machine

/-- For every instruction of the opcode table that is well formed (its row's own condition, and no more specific row
matches its word: the model's choice, entry 15), decode of encode is that instruction. All 23 constructors, every
operand at every value. Rests on 30_encoding.md sections 1 to 3; spec/opcode_table.json; notes/assumptions/15.md. -/
def Obligations.DecodeOfEncodeGivesTheInstruction : Prop :=
  ∀ i : Instr, i.wellFormed = true → decode (encode i) = .ok i

/-- For every cell value w: decode answers an instruction, it is well formed, its word is w, its source is w div 100 and
its destination w mod 100. So no word is illegal and no digit is dropped. (Which row of the table stands for a word is
the model's choice, entry 15.) Rests on 30_encoding.md sections 1, 3 and 4; notes/assumptions/15.md. -/
def Obligations.EveryCellValueIsAWellFormedInstruction : Prop :=
  ∀ w : Cell, decode w.val = .ok (decodeCell w) ∧ (decodeCell w).wellFormed = true ∧ encode (decodeCell w) = w.val ∧
    (decodeCell w).src = w.val / 100 ∧ (decodeCell w).dst = w.val % 100

/-- For every natural number the decoder gives (word div 100, word mod 100), with no bounds check; for a word up to 9999
both are at most 99; 100*src + dst is the word again; decode(0) is (0, 0) but the machine takes word 0 as HALT first.
Rule R110 of the spec. -/
def Obligations.DecoderSplitsTheWord : Prop :=
  (∀ w : Nat, splitWord w = (w / 100, w % 100) ∧ joinWord (splitWord w).1 (splitWord w).2 = w) ∧
  (∀ w : Nat, w ≤ 9999 → (splitWord w).1 ≤ 99 ∧ (splitWord w).2 ≤ 99) ∧
  splitWord 0 = (0, 0) ∧ decodeCell 0 = .halt

/-- For every number above 9999 decode answers the error notACell, and word div 100 exceeds 99. (That decode rejects such
a number by name is the model's choice, entry 27: the spec's own decoder gives the same two formulas for it, and
leaves the bounds to the engine.) Rests on 40_decoder_and_derived_unit.md section 1; notes/assumptions/27.md. -/
def Obligations.NumbersNoCellHoldsAreRejectedByName : Prop :=
  ∀ w : Nat, 9999 < w → decode w = .error .notACell ∧ 99 < (splitWord w).1

/-- One word for each class of the opcode table, written out as 100*src + dst from the encoding: 0, 1, 909, 100, 901, 302,
903, 204, 305, 206, 207, 608, 211, 250, 9, 109, 410, 512, 613, 749, 1210, 209, 5050. Of these 0, 1, 9, 100, 209, 302,
903, 211, 608, 909 and 5050 are in the spec's decoder table V-X; the others are written out from the rows' patterns.
(The rows overlap: which of them a word decodes to, 909 to nop and 302 to movToA, is the model's choice, entry 15.)
Rests on 95_test_vectors.md V-X; 30_encoding.md sections 1 and 3; spec/opcode_table.json; notes/assumptions/15.md. -/
def Obligations.WrittenOutWordsDecodeToTheirInstructions : Prop :=
  decode 0 = .ok .halt ∧ decode 1 = .ok .stop ∧ decode 909 = .ok .nop ∧ decode 100 = .ok (.movToHalt 1) ∧
  decode 901 = .ok (.movToPc 9) ∧ decode 302 = .ok (.movToA 3) ∧ decode 903 = .ok (.movToB 9) ∧
  decode 204 = .ok (.movToSum 2) ∧ decode 305 = .ok (.movToSub 3) ∧ decode 206 = .ok (.movToCmp 2) ∧
  decode 207 = .ok (.movToTrn 2) ∧ decode 608 = .ok (.movToC 6) ∧ decode 211 = .ok (.movToOut 2) ∧
  decode 250 = .ok (.movToRom 2 50) ∧ decode 9 = .ok (.movFromHalt 9) ∧ decode 109 = .ok (.movFromPc 9) ∧
  decode 410 = .ok (.movFromSum 10) ∧ decode 512 = .ok (.movFromSub 12) ∧ decode 613 = .ok (.movFromCmp 13) ∧
  decode 749 = .ok (.movFromTrn 49) ∧ decode 1210 = .ok (.movFromIn 10) ∧ decode 209 = .ok (.mov 2 9) ∧
  decode 5050 = .ok (.movSame 50)

/-- The rows of the table overlap. For every instruction i whose operands meet its row's own condition, and the word w
that i encodes to, running i and running the instruction that w decodes to are the same in every state. Rests on
30_encoding.md sections 3 and 7; notes/assumptions/15.md. -/
def Obligations.RowOfAWordDoesNotChangeItsMeaning : Prop :=
  ∀ (i : Instr) (w : Cell) (s : State), i.inRow = true → w.val = encode i → exec i s = exec (decodeCell w) s

/-- With the run loop stopped: where no turn is scheduled, or a STEP is scheduled next, and the word at the counter is w,
step is exec of the instruction w decodes to, on the state (less the turn taken from the schedule). With the run loop
active and no turn scheduled, step is the run controller's move. In general step takes the first scheduled turn. (The
schedule and the two default turns are the model's choice, entry 11.) Rests on 41_step_mov_halt.md section 1;
notes/assumptions/11.md. -/
def Obligations.StepRunsTheDecodedInstruction : Prop :=
  (∀ (s : State) (w : Cell), s.running = false → s.schedule = [] → s.word? = some w → step s = exec (decodeCell w) s) ∧
  (∀ (s : State) (w : Cell) (rest : List Turn), s.running = false → s.schedule = .step :: rest → s.word? = some w →
    step s = exec (decodeCell w) { s with schedule := rest }) ∧
  (∀ s : State, s.running = true → s.schedule = [] → step s = takeTurn .controller s) ∧
  (∀ (s : State) (t : Turn) (rest : List Turn), s.schedule = t :: rest → step s = takeTurn t { s with schedule := rest })

/-- For every state and every word below 10000, step of the state with the word placed is exec of the decoded word on that
state (the placing is the model's, entry 16). Rests on 41_step_mov_halt.md section 1; 20_memory.md section 3;
notes/assumptions/16.md. -/
def Obligations.PlacedWordIsTheNextInstruction : Prop :=
  ∀ (s : State) (nbits : Nat) (w : Cell),
    step (s.withFetchWord nbits w.val) = exec (decodeCell w) (s.withFetchWord nbits w.val)

/-- For every row of the table but HALT (mov, movToHalt, movToPc, movToA, movToB, movToSum, movToSub, movToCmp, movToTrn,
movToC, movToOut, movToRom, movFromHalt, movFromPc, movFromSum, movFromSub, movFromCmp, movFromTrn, movFromIn,
movSame, stop, nop), all operands its row admits, and every state whose counter is the address pc: exec answers a next
state t in which the counter is the next one, the destination holds the source's old value (unless it is cell 1 or one
of cells 4 to 7), every other cell but 1 and 4 to 7 is unchanged, cells 4 to 7 follow the new A, B, C, one entry is
pushed with every field from the state before, one event is emitted exactly when the destination is OUT, the result
carries source, destination and value, and breakpoints, run flag, schedule and report are unchanged. (Choices: that a
written counter of 0 stays 0 and another value v goes to v plus 1 modulo 100 is the spec's own decision D2, entry 5;
that cell 0 is written is D5, entry 7; that program cells are written is D6, entry 8.) Rests on 41_step_mov_halt.md
sections 1 to 4; 92_eei_decisions.md D2, D5, D6; notes/assumptions/5.md; notes/assumptions/7.md;
notes/assumptions/8.md. -/
def Obligations.EveryMovRowMovesOneCell : Prop :=
  ∀ (i : Instr) (s : State) (pc src dst : Addr), i.inRow = true → i ≠ .halt → s.pc.val = pc.val →
    i.src = src.val → i.dst = dst.val → ∃ t, exec i s = .next t ∧ MovEffect s t pc src dst

/-- For every state that executes a word whose destination is not cell 1, the counter after is (counter before + 1) mod
100; from 99 it is 0. The word at 99 is no exception and the next address needs no alignment. Rule R136 of the spec. -/
def Obligations.NormalAdvanceIsPlusOneModuloHundred : Prop :=
  ∀ (s t : State) (w : Cell), s.word? = some w → w.val % 100 ≠ 1 → Executes s t →
    t.pc.val = (s.pc.val + 1) % 100 ∧ (s.pc.val = 99 → t.pc.val = 0)

/-- For every state whose counter is an address and every source: movToPc answers a next state whose counter is 0 when the
source's value is 0 and (value + 1) mod 100 otherwise; no event; every cell but cell 1 and cells 4 to 7 unchanged, and
where cells 4 to 7 followed A, B, C before, they too are unchanged; one entry is pushed with every field from the
state before; the result carries the source, destination 1 and the value; breakpoints, run flag, schedule and report
are unchanged. (The treatment of a written 0 is the spec's own decision D2, entry 5.) Rests on 41_step_mov_halt.md
section 2; 90_conflicts.md C1; 92_eei_decisions.md D2; notes/assumptions/5.md. -/
def Obligations.JumpGoesToTheWrittenValuePlusOne : Prop :=
  ∀ (s : State) (pc src : Addr), s.pc.val = pc.val → ∃ t, exec (.movToPc src.val) s = .next t ∧
    t.pc.val = (if (s.cell src).val = 0 then 0 else ((s.cell src).val + 1) % 100) ∧ t.outLog = s.outLog ∧
    (∀ a, a ≠ Reg.pc → notDerived a → t.cell a = s.cell a) ∧
    (s.mem.derivedOk → ∀ a, a ≠ Reg.pc → t.cell a = s.cell a) ∧
    t.hist = (if s.hist.length = 100 then s.hist.tail else s.hist) ++
      [{ pcBefore := pc, instrWord := Cell.ofNat (100 * src.val + 1), src := src, dst := Reg.pc,
         valueSrcBeforeStep := s.cell src, valueDstBeforeStep := s.cell Reg.pc, outBeforeStep := s.cell Reg.out }] ∧
    t.result = some (.stepped src Reg.pc (s.cell src)) ∧ s.sameOutside t

/-- Under postIncrAlways a value p written to cell 1 gives (p + 1) mod 100; under noIncr it gives p; under
postIncrExceptZero it gives 0 for p = 0 and (p + 1) mod 100 otherwise; where the destination is another cell all three
give (p + 1) mod 100. The mode the machine uses is postIncrExceptZero (the spec's own decision D2, entry 5). Rests on
41_step_mov_halt.md section 2; 95_test_vectors.md V-J; notes/assumptions/5.md. -/
def Obligations.ProgramCounterWriteModes : Prop :=
  (∀ p : Cell, (nextPc .postIncrAlways Reg.pc p).val = (p.val + 1) % 100 ∧ nextPc .noIncr Reg.pc p = p ∧
    (nextPc .postIncrExceptZero Reg.pc p).val = (if p.val = 0 then 0 else (p.val + 1) % 100)) ∧
  (∀ (mode : Config.PcWriteMode) (dst : Addr) (p : Cell), dst ≠ Reg.pc → (nextPc mode dst p).val = (p.val + 1) % 100) ∧
  Config.pcWriteMode = .postIncrExceptZero

/-- For every state whose counter is an address and whose cell 0 holds 0: STOP answers a next state with counter 0,
halted, in which a further STEP answers HaltedNoOp and changes nothing else. (That the written 0 stays 0 in the
counter is the spec's own decision D2, entry 5.) Rests on 30_encoding.md section 4; 41_step_mov_halt.md section 2;
92_eei_decisions.md D2; notes/assumptions/5.md. -/
def Obligations.StopWordHaltsAtAddressZero : Prop :=
  ∀ (s : State) (pc : Addr), s.pc.val = pc.val → s.cell Reg.halt = 0 → ∃ t, exec .stop s = .next t ∧
    t.pc = 0 ∧ t.cell Reg.halt = 0 ∧ t.halted ∧ commandStep t = .next { t with result := some .haltedNoOp }

/-- For every state whose counter is an address and whose cells 4 to 7 follow A, B, C: NOP answers a next state with the
counter advanced, every other cell unchanged, no event, and one entry whose two values agree. Rests on 30_encoding.md
sections 4 and 6; 41_step_mov_halt.md section 4. -/
def Obligations.NopOnlyAdvances : Prop :=
  ∀ (s : State) (pc : Addr), s.pc.val = pc.val → s.mem.derivedOk → ∃ t e, exec .nop s = .next t ∧
    t.pc.val = (pc.val + 1) % 100 ∧ (∀ a, a ≠ Reg.pc → t.cell a = s.cell a) ∧ t.outLog = s.outLog ∧
    t.hist = (if s.hist.length = 100 then s.hist.tail else s.hist) ++ [e] ∧ e.pcBefore = pc ∧ e.instrWord = 909 ∧
    e.valueSrcBeforeStep = e.valueDstBeforeStep ∧ s.sameOutside t

/-- For every state whose counter is an address and every source with old value v: after MOV src, A the cells A, SUM, SUB,
CMP, TRN are v and the sum, difference, comparison and selection of v, B, C; after MOV src, B the same of A, v, C;
after MOV src, C the same of A, B, v; the other two operands, the counter's advance, and the entry are as for any MOV.
The words are ss02, ss03, ss08. Rule R139 of the spec. -/
def Obligations.OperandLoadsRecomputeTheDerivedCells : Prop :=
  ∀ (s : State) (pc src : Addr), s.pc.val = pc.val →
    encode (.movToA src.val) = 100 * src.val + 2 ∧ encode (.movToB src.val) = 100 * src.val + 3 ∧
    encode (.movToC src.val) = 100 * src.val + 8 ∧
    (∃ t, exec (.movToA src.val) s = .next t ∧ MovEffect s t pc src Reg.a ∧ t.cell Reg.a = s.cell src ∧
      (t.cell Reg.sum).val = ((s.cell src).val + (s.cell Reg.b).val) % 10000 ∧
      (t.cell Reg.sub).val = ((s.cell src).val + 10000 - (s.cell Reg.b).val) % 10000 ∧
      (t.cell Reg.cmp).val = (if (s.cell Reg.b).val < (s.cell src).val then 1 else 0) ∧
      t.cell Reg.trn = (if s.cell Reg.c ≠ 0 then s.cell src else s.cell Reg.b)) ∧
    (∃ t, exec (.movToB src.val) s = .next t ∧ MovEffect s t pc src Reg.b ∧ t.cell Reg.b = s.cell src ∧
      (t.cell Reg.sum).val = ((s.cell Reg.a).val + (s.cell src).val) % 10000 ∧
      (t.cell Reg.sub).val = ((s.cell Reg.a).val + 10000 - (s.cell src).val) % 10000 ∧
      (t.cell Reg.cmp).val = (if (s.cell src).val < (s.cell Reg.a).val then 1 else 0) ∧
      t.cell Reg.trn = (if s.cell Reg.c ≠ 0 then s.cell Reg.a else s.cell src)) ∧
    (∃ t, exec (.movToC src.val) s = .next t ∧ MovEffect s t pc src Reg.c ∧ t.cell Reg.c = s.cell src ∧
      (t.cell Reg.sum).val = ((s.cell Reg.a).val + (s.cell Reg.b).val) % 10000 ∧
      (t.cell Reg.sub).val = ((s.cell Reg.a).val + 10000 - (s.cell Reg.b).val) % 10000 ∧
      (t.cell Reg.cmp).val = (if (s.cell Reg.b).val < (s.cell Reg.a).val then 1 else 0) ∧
      t.cell Reg.trn = (if s.cell src ≠ 0 then s.cell Reg.a else s.cell Reg.b))

/-- For every state whose counter is an address and whose cells 4 to 7 follow A, B, C, and every source: movToSum,
movToSub, movToCmp and movToTrn answer a next state in which every cell but cell 1 is unchanged, the counter has
advanced, no event is emitted, and one entry is pushed. Rests on 41_step_mov_halt.md section 3; 10_state.md section 2. -/
def Obligations.DerivedDestinationsDiscardTheValue : Prop :=
  ∀ (s : State) (pc src : Addr) (i : Instr), s.pc.val = pc.val → s.mem.derivedOk →
    (i = .movToSum src.val ∨ i = .movToSub src.val ∨ i = .movToCmp src.val ∨ i = .movToTrn src.val) →
    ∃ t e, exec i s = .next t ∧ (∀ a, a ≠ Reg.pc → t.cell a = s.cell a) ∧ t.pc.val = (pc.val + 1) % 100 ∧
      t.outLog = s.outLog ∧ t.hist = (if s.hist.length = 100 then s.hist.tail else s.hist) ++ [e] ∧
      e.dst.val = i.dst ∧ e.valueDstBeforeStep = s.cell e.dst ∧ s.sameOutside t

/-- For every state whose counter is an address and every source, OUT itself included: movToOut answers a next state whose
log is the old log with the source's old value appended, whose cell 11 holds that value, whose derived cells follow
the unchanged A, B, C, and whose newest entry holds the old content of cell 11 twice. The word is ss11. Rule R138 of
the spec. -/
def Obligations.OutputEmitsOneEventWithTheValue : Prop :=
  ∀ (s : State) (pc src : Addr), s.pc.val = pc.val →
    encode (.movToOut src.val) = 100 * src.val + 11 ∧
    ∃ t e, exec (.movToOut src.val) s = .next t ∧ MovEffect s t pc src Reg.out ∧
      t.outLog = s.outLog ++ [s.cell src] ∧ t.cell Reg.out = s.cell src ∧
      (∀ a, a ≠ Reg.pc → a ≠ Reg.out → notDerived a → t.cell a = s.cell a) ∧
      t.hist = (if s.hist.length = 100 then s.hist.tail else s.hist) ++ [e] ∧
      e.outBeforeStep = s.cell Reg.out ∧ e.valueDstBeforeStep = s.cell Reg.out

/-- For every state whose counter is an address, every source and every destination 50 to 99: movToRom answers a next
state whose destination cell holds the source's old value, every other cell but 1 and 4 to 7 unchanged; and where the
destination is the next address, the word at the counter is the stored one, which the next STEP decodes and runs.
(That a MOV writes the cells 50 to 99 at all is the spec's own decision D6, entry 8.) Rests on 41_step_mov_halt.md
section 3; 20_memory.md section 3; 92_eei_decisions.md D6; notes/assumptions/8.md. -/
def Obligations.StoredWordIsFetchedByTheNextStep : Prop :=
  ∀ (s : State) (pc src dst : Addr), 50 ≤ dst.val → s.pc.val = pc.val → ∃ t, exec (.movToRom src.val dst.val) s = .next t ∧
    t.cell dst = s.cell src ∧ (∀ a, a ≠ Reg.pc → a ≠ dst → notDerived a → t.cell a = s.cell a) ∧
    t.pc.val = (pc.val + 1) % 100 ∧
    (dst.val = (pc.val + 1) % 100 → t.word? = some (s.cell src) ∧ commandStep t = exec (decodeCell (s.cell src)) t)

/-- For every state whose counter is an address and every source but cell 0: movToHalt answers a next state whose cell 0
holds the source's old value, every other cell but 1 and 4 to 7 unchanged; where the counter comes to 0 and the value
is not 0, the machine is not halted. (That the write happens is the spec's own decision D5, entry 7.) Rests on
41_step_mov_halt.md section 3; 90_conflicts.md C4; 92_eei_decisions.md D5; notes/assumptions/7.md. -/
def Obligations.HaltCellIsWrittenLikeAnyOther : Prop :=
  ∀ (s : State) (pc src : Addr), src ≠ Reg.halt → s.pc.val = pc.val → ∃ t, exec (.movToHalt src.val) s = .next t ∧
    t.cell Reg.halt = s.cell src ∧ (∀ a, a ≠ Reg.pc → a ≠ Reg.halt → notDerived a → t.cell a = s.cell a) ∧
    t.pc.val = (pc.val + 1) % 100 ∧ (pc.val = 99 → s.cell src ≠ 0 → ¬ t.halted)

/-- For every state whose counter is the address pc and every destination: movFromPc answers a next state with result
Stepped(1, dst, pc); the destination holds pc unless it is cell 1 or one of 4 to 7; for destination 1 the counter is
as for a no-op, pc + 1 modulo 100, but 0 stays 0. (For destination 1, that 0 stays 0 is the spec's own decision D2,
entry 5.) Rests on 41_step_mov_halt.md section 4; 92_eei_decisions.md D2; notes/assumptions/5.md. -/
def Obligations.ReadingTheCounterGivesTheOwnAddress : Prop :=
  ∀ (s : State) (pc dst : Addr), s.pc.val = pc.val → ∃ t, exec (.movFromPc dst.val) s = .next t ∧
    t.result = some (.stepped Reg.pc dst pc.toCell) ∧ (dst ≠ Reg.pc → notDerived dst → t.cell dst = pc.toCell) ∧
    (dst ≠ Reg.pc → t.pc.val = (pc.val + 1) % 100) ∧
    (dst = Reg.pc → t.pc.val = if pc.val = 0 then 0 else (pc.val + 1) % 100)

/-- For every state whose counter is an address and whose cells 4 to 7 follow A, B, C (which every reachable state's do),
and every destination: the four rows answer next states whose result carries the sum modulo 10000, the difference
modulo 10000, the comparison and the selection of the A, B, C before the step, and the destination holds it unless it
is cell 1 or one of 4 to 7. The words are 04dd to 07dd. Rule R142 of the spec. -/
def Obligations.ReadingADerivedCellGivesTheCurrentArithmetic : Prop :=
  ∀ (s : State) (pc dst : Addr), s.pc.val = pc.val → s.mem.derivedOk →
    (∃ t v, exec (.movFromSum dst.val) s = .next t ∧ t.result = some (.stepped Reg.sum dst v) ∧
      v.val = ((s.cell Reg.a).val + (s.cell Reg.b).val) % 10000 ∧ (dst ≠ Reg.pc → notDerived dst → t.cell dst = v) ∧
      encode (.movFromSum dst.val) = 400 + dst.val) ∧
    (∃ t v, exec (.movFromSub dst.val) s = .next t ∧ t.result = some (.stepped Reg.sub dst v) ∧
      v.val = ((s.cell Reg.a).val + 10000 - (s.cell Reg.b).val) % 10000 ∧
      (dst ≠ Reg.pc → notDerived dst → t.cell dst = v) ∧ encode (.movFromSub dst.val) = 500 + dst.val) ∧
    (∃ t v, exec (.movFromCmp dst.val) s = .next t ∧ t.result = some (.stepped Reg.cmp dst v) ∧
      v.val = (if (s.cell Reg.b).val < (s.cell Reg.a).val then 1 else 0) ∧
      (dst ≠ Reg.pc → notDerived dst → t.cell dst = v) ∧ encode (.movFromCmp dst.val) = 600 + dst.val) ∧
    (∃ t v, exec (.movFromTrn dst.val) s = .next t ∧ t.result = some (.stepped Reg.trn dst v) ∧
      v = (if s.cell Reg.c ≠ 0 then s.cell Reg.a else s.cell Reg.b) ∧
      (dst ≠ Reg.pc → notDerived dst → t.cell dst = v) ∧ encode (.movFromTrn dst.val) = 700 + dst.val)

/-- For every state whose counter is an address and whose cell 0 holds 0, and every destination but 0: movFromHalt answers
a next state in which the destination holds 0 (unless it is one of cells 4 to 7; for destination 1 the counter is 0),
cell 0 still holds 0, and every cell but the destination, cell 1 and cells 4 to 7 is unchanged. (For destination 1,
that a written 0 stays 0 in the counter is the spec's own decision D2, entry 5.) Rests on 41_step_mov_halt.md sections
2 and 4; 30_encoding.md section 4; 92_eei_decisions.md D2; notes/assumptions/5.md. -/
def Obligations.MovingTheHaltCellClears : Prop :=
  ∀ (s : State) (pc dst : Addr), dst ≠ Reg.halt → s.pc.val = pc.val → s.cell Reg.halt = 0 →
    ∃ t, exec (.movFromHalt dst.val) s = .next t ∧ (notDerived dst → t.cell dst = 0) ∧ t.cell Reg.halt = 0 ∧
      (∀ a, a ≠ Reg.pc → a ≠ dst → notDerived a → t.cell a = s.cell a)

/-- For every state whose counter is an address and every destination: movFromIn answers a next state with result
Stepped(12, dst, v) for the old content v of cell 12, the destination holding v unless it is cell 1 or one of 4 to 7,
cell 12 unchanged, and the result the one on which the run loop stops. Rests on 41_step_mov_halt.md section 4;
44_run_controller.md section on the stop on input. -/
def Obligations.InputIsCopiedAndNotConsumed : Prop :=
  ∀ (s : State) (pc dst : Addr), s.pc.val = pc.val → ∃ t, exec (.movFromIn dst.val) s = .next t ∧
    t.result = some (.stepped Reg.inp dst (s.cell Reg.inp)) ∧
    (dst ≠ Reg.pc → notDerived dst → t.cell dst = s.cell Reg.inp) ∧ t.cell Reg.inp = s.cell Reg.inp ∧
    t.readInput = true

/-- For every state whose counter is an address and whose cells 4 to 7 follow A, B, C, and every x but 0: movSame answers
a next state with every cell but cell 1 unchanged; the log grows by the content of cell 11 exactly when x is 11; the
counter advances, except that for x = 1 a counter of 0 stays 0; and the entry's two values agree. (For x = 1, that a
counter of 0 stays 0 is the spec's own decision D2, entry 5.) Rests on 41_step_mov_halt.md section 4;
92_eei_decisions.md D2; notes/assumptions/5.md. -/
def Obligations.MovingACellToItselfChangesOnlyTheCounter : Prop :=
  ∀ (s : State) (pc x : Addr), x ≠ Reg.halt → s.pc.val = pc.val → s.mem.derivedOk → ∃ t e, exec (.movSame x.val) s = .next t ∧
    (∀ a, a ≠ Reg.pc → t.cell a = s.cell a) ∧
    t.outLog = (if x = Reg.out then s.outLog ++ [s.cell Reg.out] else s.outLog) ∧
    t.pc.val = (if x = Reg.pc ∧ pc.val = 0 then 0 else (pc.val + 1) % 100) ∧
    t.hist = (if s.hist.length = 100 then s.hist.tail else s.hist) ++ [e] ∧
    e.valueSrcBeforeStep = e.valueDstBeforeStep

/-- HALT is word 0 and answers HaltedNoOp with the state otherwise unchanged, the counter included. A STEP in a halted
state (the counter an address, the word there 0, at whatever address) is that, and is halted again. Whatever turn
takes a halted state to one that is not halted is STEP_BACK, WRITE, LOAD, RESET_REGS or RESET_PROG. Rule R131 of the
spec. -/
def Obligations.HaltIsAFixedPointLeftOnlyByEditsAndUndo : Prop :=
  encode .halt = 0 ∧ (∀ s : State, exec .halt s = .next { s with result := some .haltedNoOp }) ∧
  (∀ (s : State) (pc : Addr), s.pc.val = pc.val → s.cell pc = 0 →
    commandStep s = .next { s with result := some .haltedNoOp } ∧
    State.halted { s with result := some .haltedNoOp }) ∧
  (∀ (turn : Turn) (s t : State), s.halted → takeTurn turn s = .next t → ¬ t.halted →
    turn = .stepBack ∨ (∃ a v, turn = .write a v) ∨ (∃ image, turn = .load image) ∨ (∃ seed, turn = .resetRegs seed) ∨
    ∃ mode program, turn = .resetProg mode program)

/-- For every state whose counter is above 99: STEP answers InvalidAddress with the state otherwise unchanged; and
whatever turn takes it to a state whose counter is at most 99 is STEP_BACK, WRITE, LOAD or RESET_REGS. (The signal is
the spec's own decision D7, entry 9.) Rests on 41_step_mov_halt.md section 1; 92_eei_decisions.md D7;
notes/assumptions/9.md. -/
def Obligations.CounterAboveNinetyNineOnlySignals : Prop :=
  (∀ s : State, s.pcInvalid → commandStep s = .next { s with result := some .invalidAddress }) ∧
  (∀ (turn : Turn) (s t : State), s.pcInvalid → takeTurn turn s = .next t → ¬ t.pcInvalid →
    turn = .stepBack ∨ (∃ a v, turn = .write a v) ∨ (∃ image, turn = .load image) ∨ ∃ seed, turn = .resetRegs seed)

/-- For every state whatever: STEP answers a next state. With the counter above 99, and only then, the result is
InvalidAddress and nothing else changes; at a word 0, and only then, it is HaltedNoOp and nothing else changes;
otherwise it is Stepped with the word's source, its destination and the source's old value. (That a counter above 99
answers InvalidAddress and changes nothing is the spec's own decision D7, entry 9; what a STEP returns is D25 and
stands in the model's field result, entry 10.) Rests on 41_step_mov_halt.md sections 1 and 5; 92_eei_decisions.md D7,
D25; notes/assumptions/9.md; notes/assumptions/10.md. -/
def Obligations.StepAnswersOneOfThreeWays : Prop :=
  ∀ s : State, ∃ t, commandStep s = .next t ∧
    (99 < s.pc.val ↔ t.result = some .invalidAddress) ∧ (s.halted ↔ t.result = some .haltedNoOp) ∧
    (99 < s.pc.val → t = { s with result := some .invalidAddress }) ∧
    (s.halted → t = { s with result := some .haltedNoOp }) ∧
    (∀ w : Cell, s.word? = some w → w ≠ 0 → ∃ src dst : Addr, src.val = w.val / 100 ∧ dst.val = w.val % 100 ∧
      t.result = some (.stepped src dst (s.cell src)))

/-- For all cells a, b, c: SUM is (a + b) mod 10000, the exact sum below 10000 and the sum less 10000 from there; SUB is a
- b if a ≥ b and a - b + 10000 if a < b; CMP is 1 if a > b and else 0; TRN is a if c is not 0 and else b. Rule R112,
R113, R114, R115 of the spec. -/
def Obligations.DerivedUnitArithmetic : Prop :=
  ∀ a b c : Cell,
    (deriveSum a b).val = (a.val + b.val) % 10000 ∧
    (a.val + b.val < 10000 → (deriveSum a b).val = a.val + b.val) ∧
    (10000 ≤ a.val + b.val → (deriveSum a b).val = a.val + b.val - 10000) ∧
    (b.val ≤ a.val → (deriveSub a b).val = a.val - b.val) ∧
    (a.val < b.val → (deriveSub a b).val = a.val + 10000 - b.val) ∧
    (b.val < a.val → deriveCmp a b = 1) ∧ (a.val ≤ b.val → deriveCmp a b = 0) ∧
    (c ≠ 0 → deriveTrn a b c = a) ∧ (c = 0 → deriveTrn a b c = b)

/-- For every snapshot: after recompute cells 4 to 7 are the unit's outputs for cells 2, 3, 8 of that snapshot, whatever
they held before; every cell outside 4 to 7 is unchanged; and on a snapshot in canonical form a second recompute
changes nothing. Rule R118 of the spec. -/
def Obligations.RecomputeRewritesOnlyTheDerivedCells : Prop :=
  ∀ m : Memory,
    m.recompute.read Reg.sum = (derive (m.read Reg.a) (m.read Reg.b) (m.read Reg.c)).sum ∧
    m.recompute.read Reg.sub = (derive (m.read Reg.a) (m.read Reg.b) (m.read Reg.c)).sub ∧
    m.recompute.read Reg.cmp = (derive (m.read Reg.a) (m.read Reg.b) (m.read Reg.c)).cmp ∧
    m.recompute.read Reg.trn = (derive (m.read Reg.a) (m.read Reg.b) (m.read Reg.c)).trn ∧
    (∀ a, notDerived a → m.recompute.read a = m.read a) ∧ (m.wf → m.recompute.recompute = m.recompute)

/-- For every buffer and entry: with 100 entries the result is the buffer without its first entry, then the new one;
otherwise the buffer and then the new one; and from at most 100 entries the length becomes min(length + 1, 100). Rule
R161 of the spec. -/
def Obligations.PushDropsTheOldestAtCapacity : Prop :=
  ∀ (h : History) (e : Entry),
    (h.length = 100 → History.push h e = h.tail ++ [e]) ∧ (h.length ≠ 100 → History.push h e = h ++ [e]) ∧
    (h.length ≤ 100 → (History.push h e).length = min (h.length + 1) 100)

/-- For every buffer h and entry e: pop_last of h ++ [e] is e and h; pop_last is undefined exactly on the empty buffer;
isEmpty says whether the length is 0; clear gives the empty buffer. Rule R163 of the spec. -/
def Obligations.PopLastTakesTheNewest : Prop :=
  ∀ (h : History) (e : Entry), History.popLast? (h ++ [e]) = some (e, h) ∧
    (History.popLast? h = none ↔ h = []) ∧ (History.isEmpty h = true ↔ h.length = 0) ∧ History.clear h = []

/-- For every state: where the word w at the counter pc is not 0, STEP answers a next state whose history is the old one
(less its oldest entry if it held 100) with one entry appended: pc, w, w div 100, w mod 100, and the old contents of
the source, the destination and cell 11. A STEP that answers HaltedNoOp or InvalidAddress leaves the history as it is.
Rule R135 of the spec. -/
def Obligations.OneEntryPerExecutedInstruction : Prop :=
  (∀ (s : State) (pc : Addr) (w : Cell), s.pc.val = pc.val → s.cell pc = w → w ≠ 0 → ∃ (t : State) (src dst : Addr),
    commandStep s = .next t ∧ src.val = w.val / 100 ∧ dst.val = w.val % 100 ∧
    t.hist = (if s.hist.length = 100 then s.hist.tail else s.hist) ++
      [{ pcBefore := pc, instrWord := w, src := src, dst := dst, valueSrcBeforeStep := s.cell src,
         valueDstBeforeStep := s.cell dst, outBeforeStep := s.cell Reg.out }]) ∧
  (∀ s t : State, commandStep s = .next t → (t.result = some .haltedNoOp ∨ t.result = some .invalidAddress) →
    t.hist = s.hist)

/-- With the run loop stopped. Where the history is rest followed by e: STEP_BACK answers Success in a state whose cell 11
holds e's outBeforeStep, whose cell e.dst holds e's valueDstBeforeStep, whose cell 1 holds e's pcBefore (each write
over the one before it in the order 1, dst, 11), every other cell but 4 to 7 unchanged, cells 4 to 7 recomputed, the
history rest, and nothing emitted or retracted. Where the history is empty: EmptyHistory, nothing else changed. (That
nothing is emitted or retracted rests on the spec's own decision D12, entry 18; that the run loop must be stopped is
D21, entry 13.) Rests on 42_history_and_undo.md section 1 (R166); 92_eei_decisions.md D12, D21;
notes/assumptions/13.md; notes/assumptions/18.md. -/
def Obligations.StepBackRestoresFromTheNewestEntry : Prop :=
  (∀ (s : State) (rest : List Entry) (e : Entry), s.running = false → s.hist = rest ++ [e] → ∃ t,
    takeTurn .stepBack s = .next t ∧ t.result = some .success ∧ t.hist = rest ∧ t.outLog = s.outLog ∧
    (∀ a, notDerived a → t.cell a = if a = Reg.out then e.outBeforeStep else if a = e.dst then e.valueDstBeforeStep
      else if a = Reg.pc then e.pcBefore.toCell else s.cell a) ∧ t.mem.derivedOk ∧ s.sameOutside t) ∧
  (∀ s : State, s.running = false → s.hist = [] → takeTurn .stepBack s = .next { s with result := some .emptyHistory })

/-- For every state whose newest history entry is one the engine can have recorded (its invariant): STEP_BACK answers a
state whose every cell is that of the model's restore, and also that of the three writes of cell 1, the destination
and cell 11 made in any order whatever and then recomputed; and outside cells 4 to 7 that is the entry's outBeforeStep
in cell 11, its valueDstBeforeStep in its destination, its pcBefore in cell 1, and the old content elsewhere. Rests on
42_history_and_undo.md section 1. -/
def Obligations.RestoresOfAnUndoCommute : Prop :=
  ∀ (s : State) (rest : List Entry) (e : Entry) (writes : List (Addr × Cell)), s.hist = rest ++ [e] → e.wf →
    writes.Perm [(Reg.pc, e.pcBefore.toCell), (e.dst, e.valueDstBeforeStep), (Reg.out, e.outBeforeStep)] →
    ∃ t, commandStepBack s = .next t ∧ ∀ a, t.cell a = (s.mem.restore e).read a ∧
      t.cell a = (Memory.recompute (writes.foldl (fun (n : Memory) x => n.write x.1 x.2) s.mem)).read a ∧
      (notDerived a → t.cell a = if a = Reg.out then e.outBeforeStep else if a = e.dst then e.valueDstBeforeStep
        else if a = Reg.pc then e.pcBefore.toCell else s.cell a)

/-- For every state that meets the invariant and every state t one executed instruction leads to: STEP_BACK at t answers
Success in a state whose memory is the memory before, whose history is the history before (less its oldest entry if it
was full), whose log still holds the events, and whose breakpoints, run flag and schedule are unchanged. (That the log
keeps the events is the spec's own decision D12, entry 18.) Rests on 42_history_and_undo.md section 1; 10_state.md
section 3; notes/assumptions/18.md; 92_eei_decisions.md D12. -/
def Obligations.UndoInvertsAnExecutedInstruction : Prop :=
  ∀ s t : State, s.Inv → Executes s t → ∃ u, commandStepBack t = .next u ∧ u.mem = s.mem ∧
    u.hist = (if s.hist.length = 100 then s.hist.tail else s.hist) ∧ u.outLog = t.outLog ∧
    u.result = some .success ∧ s.sameOutside u

/-- For every state s that meets the invariant, every n up to 100, and every state t that n executed instructions in a row
lead to: n STEP_BACKs in a row all answer Success and end in a state whose memory is that of s, with the events still
in the log; one STEP then one STEP_BACK is the case n = 1. What the history itself is after is not claimed, but for
the entries the pushes evicted: its length is min(|H| + n, 100) - n. (The induction is an inference the spec marks as
its own; that the log keeps the events is the spec's own decision D12, entry 18.) Rests on 42_history_and_undo.md
section 1 (R168); 92_eei_decisions.md D12; notes/assumptions/18.md. -/
def Obligations.UndoInvertsUpToHundredInstructions : Prop :=
  ∀ (n : Nat) (s t : State), s.Inv → ExecutedSteps n s t → n ≤ 100 → ∃ u, Undone n t u ∧ u.mem = s.mem ∧
    u.outLog = t.outLog ∧ u.hist.length = min (s.hist.length + n) 100 - n

/-- For every state r that meets the invariant (it may itself lie any number of executed instructions after the start) and
every state t that 100 executed instructions lead to from r: 100 STEP_BACKs in a row succeed and end in a state whose
memory is that of r, and the next STEP_BACK answers EmptyHistory and changes nothing else. Rule R164 of the spec. -/
def Obligations.UndoReachesBackExactlyHundredInstructions : Prop :=
  ∀ r t : State, r.Inv → ExecutedSteps 100 r t → ∃ u, Undone 100 t u ∧ u.mem = r.mem ∧ u.hist = [] ∧
    commandStepBack u = .next { u with result := some .emptyHistory }

/-- The state at creation meets the invariants, with the default parameters and with any seed and sample program:
canonical memory, derived cells, history bound and entries, breakpoints, the loop's own fields clear. Rests on
10_state.md section 5; 70_reset_and_hazards.md section 1. -/
def Obligations.ResetMeetsTheInvariant : Prop :=
  State.reset.Inv ∧ ∀ seed program : List Cell, (State.created seed program).Inv

/-- At creation with the defaults: cell 1 holds 50; every other cell of 0 to 49 holds 0; cells 50 to 55 hold
SAMPLE_PROGRAM; cells 56 to 99 hold 0. With any seed of 50 cells and any program of six: cells 0 to 49 outside 4 to 7
are the seed's, cells 4 to 7 follow, cells 50 to 55 are the program's, cells 56 to 99 are 0. In each case H, OUTLOG
and BP are empty and RUNNING is false. Where the storage port returns no image creation ends there; where it returns
100 cells, every cell outside 4 to 7 is the image's, cells 4 to 7 follow, and H, OUTLOG, BP are empty and RUNNING
false; anything else it returns is refused. (Choices, the spec's own decisions: the zeros of cells 9 to 49 D8 and the
seed's form D9, entry 3; the program's words and the zeros of 56 to 99 D10, entry 4; H, OUTLOG, BP and RUNNING D27,
entry 21; the image full and verbatim D23 and D28, entry 23; the refusal D13, entry 14.) Rests on 10_state.md section
5; 70_reset_and_hazards.md section 1 (R250); 20_memory.md section 5; 92_eei_decisions.md D8, D9, D10, D13, D23, D27,
D28; notes/assumptions/3.md; notes/assumptions/4.md; notes/assumptions/14.md; notes/assumptions/21.md;
notes/assumptions/23.md. -/
def Obligations.ResetHoldsTheCreatedValues : Prop :=
  State.reset.pc = 50 ∧ (∀ a : Addr, a.val < 50 → a ≠ Reg.pc → State.reset.cell a = 0) ∧
  (∀ (a : Addr) (h : a.val - 50 < Config.sampleProgram.length), 50 ≤ a.val →
    State.reset.cell a = Config.sampleProgram[a.val - 50]) ∧
  (∀ a : Addr, 56 ≤ a.val → State.reset.cell a = 0) ∧
  State.reset.hist = [] ∧ State.reset.outLog = [] ∧ State.reset.bp = [] ∧ State.reset.running = false ∧
  State.reset = State.created Config.regSeed Config.sampleProgram ∧
  (∀ (seed program : List Cell) (hs : seed.length = 50) (hp : program.length = 6),
    (∀ (a : Addr) (ha : a.val < 50), notDerived a → (State.created seed program).cell a = seed[a.val]'(by omega)) ∧
    (∀ (a : Addr) (ha : a.val < 56), 50 ≤ a.val → (State.created seed program).cell a = program[a.val - 50]'(by omega)) ∧
    (∀ a : Addr, 56 ≤ a.val → (State.created seed program).cell a = 0) ∧ (State.created seed program).mem.derivedOk ∧
    (State.created seed program).hist = [] ∧ (State.created seed program).outLog = [] ∧
    (State.created seed program).bp = [] ∧ (State.created seed program).running = false ∧
    createdWith seed program none = .next (State.created seed program) ∧
    (∀ (image : List Cell) (h : image.length = 100), ∃ t, createdWith seed program (some (image.map Fin.val)) = .next t ∧
      (∀ a : Addr, notDerived a → t.cell a = image[a.val]'(by omega)) ∧ t.mem.derivedOk ∧ t.hist = [] ∧ t.outLog = [] ∧
      t.bp = [] ∧ t.running = false) ∧
    (∀ ns : List Nat, (ns.length ≠ 100 ∨ ∃ n ∈ ns, 9999 < n) →
      createdWith seed program (some ns) = .refused .imageNotAnImage))

/-- For every state that meets the invariants (memory in canonical form; cells 4 to 7 the pure function of cells 2, 3, 8;
at most 100 history entries, each consistent with its word and, where it recorded cell 1 or 11 twice, with itself;
breakpoints a rising list of addresses 50 to 99; the run loop's own fields clear while it is stopped) and whatever
turn is taken: if step answers a next state, that state meets them too. Rests on 10_state.md sections 3 to 5;
40_decoder_and_derived_unit.md section 2; 42_history_and_undo.md section 1. -/
def Obligations.EveryStepKeepsTheInvariant : Prop :=
  ∀ s t : State, s.Inv → step s = .next t → t.Inv

/-- For every state: a STEP from a counter of at most 99 answers a counter of at most 99, and a STEP_BACK with a non-empty
history of entries the engine can have recorded does too. Rests on 10_state.md section 3; 92_eei_decisions.md D7. -/
def Obligations.StepAndUndoKeepTheCounterInRange : Prop :=
  (∀ s t : State, s.pc.val ≤ 99 → commandStep s = .next t → t.pc.val ≤ 99) ∧
  (∀ s t : State, (∀ e ∈ s.hist, e.wf) → s.hist ≠ [] → commandStepBack s = .next t → t.pc.val ≤ 99)

/-- For every state and whatever turn is taken: the log after a step is the log before, or that with one value appended;
in the second case the turn taken was STEP or the run controller's move outside the delay, the word executed has
destination 11, cell 11 holds the value, and the result is Stepped with destination 11 and that value. (That no undo,
edit or reset removes or adds an event is the spec's own decision D12, entry 18.) Rests on 10_state.md section 4;
20_memory.md section 4; 43_direct_edit_commands.md; notes/assumptions/18.md; 92_eei_decisions.md D12. -/
def Obligations.OutputLogOnlyGrowsByInstructions : Prop :=
  ∀ s t : State, step s = .next t → t.outLog = s.outLog ∨
    ((s.turnTaken = .step ∨ (s.turnTaken = .controller ∧ s.running = true ∧ s.atDelay = false)) ∧
      (∃ w : Cell, s.word? = some w ∧ w.val % 100 = 11) ∧ t.outLog = s.outLog ++ [t.cell Reg.out] ∧
      ∃ src : Addr, t.result = some (.stepped src Reg.out (t.cell Reg.out)))

/-- For every state and every command of the host that returns a result (all but RUN and CANCEL): if it answers with
InvalidAddress, EmptyHistory or HaltedNoOp, the state is the state before with that result, and nothing else. Rule
R226 of the spec. -/
def Obligations.SignalsChangeNothing : Prop :=
  ∀ (turn : Turn) (s t : State) (r : Result), turn ≠ .controller → turn ≠ .run → turn ≠ .cancel →
    takeTurn turn s = .next t → t.result = some r → (r = .invalidAddress ∨ r = .emptyHistory ∨ r = .haltedNoOp) →
    t = { s with result := some r }

/-- With the run loop stopped, for every address 0 to 99 and every cell value: WRITE answers Ok in a state whose cell addr
holds the value (unless it is one of 4 to 7), every other cell but 4 to 7 unchanged, cells 4 to 7 recomputed, the
history empty, no event, the counter not advanced. (That every accepted WRITE recomputes, and that one of cells 4 to 7
is lost, is the spec's own decision D4, entry 19; that a WRITE of cell 11 emits nothing is entry 18; that the loop
must be stopped is entry 13.) Rests on 43_direct_edit_commands.md (R180, R182, R187); 92_eei_decisions.md D4, D12;
notes/assumptions/13.md; notes/assumptions/18.md; notes/assumptions/19.md. -/
def Obligations.WriteStoresRecomputesAndClears : Prop :=
  ∀ (s : State) (a : Addr) (v : Cell), s.running = false → ∃ t, takeTurn (.write a.val v.val) s = .next t ∧
    (∀ b, notDerived b → t.cell b = if b = a then v else s.cell b) ∧ t.mem.derivedOk ∧ t.hist = [] ∧
    t.outLog = s.outLog ∧ t.result = some .ok ∧ s.sameOutside t

/-- With the run loop stopped, for every address above 99 and every cell value: WRITE answers InvalidAddress and nothing
else changes. (Rejecting rather than ignoring is the spec's own decision D3, entry 6.) Rests on
43_direct_edit_commands.md; 90_conflicts.md C6; 92_eei_decisions.md D3; notes/assumptions/6.md. -/
def Obligations.RejectedWriteChangesNothing : Prop :=
  ∀ (s : State) (addr : Nat) (v : Cell), s.running = false → 99 < addr →
    takeTurn (.write addr v.val) s = .next { s with result := some .invalidAddress }

/-- With the run loop stopped, for every image of 100 cells: LOAD answers Ok in a state whose cells outside 4 to 7 are the
image's, cells 4 to 7 recomputed, the history empty, no event. (Choices, the spec's own decisions: the image is the
full 100 cells, D23, and is taken verbatim, cells 0 and 1 included, D28, entry 23; the recomputation is entry 19; that
no event is retracted is D12, entry 18.) Rests on 43_direct_edit_commands.md; 92_eei_decisions.md D4, D12, D23, D28;
notes/assumptions/18.md; notes/assumptions/19.md; notes/assumptions/23.md. -/
def Obligations.LoadReplacesEveryCell : Prop :=
  ∀ (s : State) (image : List Cell) (h : image.length = 100), s.running = false → ∃ t,
    takeTurn (.load (image.map Fin.val)) s = .next t ∧
    (∀ a : Addr, notDerived a → t.cell a = image[a.val]'(by omega)) ∧ t.mem.derivedOk ∧ t.hist = [] ∧
    t.outLog = s.outLog ∧ t.result = some .ok ∧ s.sameOutside t

/-- With the run loop stopped, for every state whose memory is canonical and whose derived cells follow A, B, C: LOAD of
the memory's own 100-cell image answers a state with the same memory. (That the image is the full 100 cells and is
taken verbatim is the spec's own decisions D23 and D28, entry 23.) Rests on 20_memory.md section 5;
43_direct_edit_commands.md; 92_eei_decisions.md D23, D28; notes/assumptions/23.md. -/
def Obligations.LoadingTheSavedImageRestoresMemory : Prop :=
  ∀ s : State, s.running = false → s.mem.wf → s.mem.derivedOk → ∃ t,
    takeTurn (.load (s.mem.image.map Fin.val)) s = .next t ∧ t.mem = s.mem ∧ t.result = some .ok

/-- With the run loop stopped: WRITE of a value above 9999 is refused, at any address; LOAD of a list that is not 100
numbers, RESET_REGS with a list that is not 50 numbers, RESET_PROG with a program that is not six numbers, or any of
them with a number above 9999, is refused. (Refusing at the boundary is the spec's own decision D13, entry 14.) Rests
on 43_direct_edit_commands.md; 92_eei_decisions.md D13; notes/assumptions/14.md. -/
def Obligations.InputsThatAreNoCellsAreRefused : Prop :=
  ∀ s : State, s.running = false →
    (∀ addr value : Nat, 9999 < value → takeTurn (.write addr value) s = .refused .valueNotACell) ∧
    (∀ image : List Nat, (image.length ≠ 100 ∨ ∃ n ∈ image, 9999 < n) →
      takeTurn (.load image) s = .refused .imageNotAnImage) ∧
    (∀ seed : List Nat, (seed.length ≠ 50 ∨ ∃ n ∈ seed, 9999 < n) →
      takeTurn (.resetRegs (some seed)) s = .refused .seedNotASeed) ∧
    (∀ (mode : ProgMode) (program : List Nat), (program.length ≠ 6 ∨ ∃ n ∈ program, 9999 < n) →
      takeTurn (.resetProg mode (some program)) s = .refused .programNotSixCells)

/-- With the run loop stopped, for every seed of 50 cells: RESET_REGS answers Ok in a state whose cells 0 to 49 outside 4
to 7 are the seed's, whose cells 50 to 99 are unchanged, cells 4 to 7 recomputed, the history empty, no event,
breakpoints unchanged. Without a seed cell 1 becomes 50 and every other cell of 0 to 49 becomes 0. (Choices, the
spec's own decisions: the zeros of 9 to 49 D8 and the 50-cell seed D9, entry 3; the history emptied D11 and the
breakpoints kept D19, entry 20; the log kept D12, entry 18.) Rests on 70_reset_and_hazards.md section 1;
92_eei_decisions.md D8, D9, D11, D12, D19; notes/assumptions/3.md; notes/assumptions/18.md; notes/assumptions/20.md. -/
def Obligations.RegisterResetWritesTheSeed : Prop :=
  (∀ (s : State) (seed : List Cell) (h : seed.length = 50), s.running = false → ∃ t,
    takeTurn (.resetRegs (some (seed.map Fin.val))) s = .next t ∧
    (∀ (a : Addr) (ha : a.val < 50), notDerived a → t.cell a = seed[a.val]'(by omega)) ∧
    (∀ a : Addr, 50 ≤ a.val → t.cell a = s.cell a) ∧ t.mem.derivedOk ∧ t.hist = [] ∧ t.outLog = s.outLog ∧
    t.result = some .ok ∧ s.sameOutside t) ∧
  (∀ s : State, s.running = false → ∃ t, takeTurn (.resetRegs none) s = .next t ∧ t.pc = 50 ∧
    (∀ a : Addr, a.val < 50 → a ≠ Reg.pc → t.cell a = 0) ∧ (∀ a : Addr, 50 ≤ a.val → t.cell a = s.cell a) ∧
    t.hist = [] ∧ t.outLog = s.outLog ∧ t.result = some .ok ∧ s.sameOutside t)

/-- With the run loop stopped, where cells 4 to 7 follow A, B, C, for every SAMPLE_PROGRAM of six cells: RESET_PROG
answers Ok in a state whose cells 0 to 49 are unchanged, whose cells 50 to 99 are 0 in mode zero, and in mode sample
the program in 50 to 55 and 0 in 56 to 99; the history empty, no event, breakpoints unchanged. Where no program is
given it is the default one. (Choices, the spec's own decisions: the default's words and the zeros of 56 to 99 in
sample mode D10, entry 4; the history emptied D11 and the breakpoints kept D19, entry 20; the log kept D12, entry 18.)
Rests on 70_reset_and_hazards.md section 1; 00_scope.md R8; 92_eei_decisions.md D10, D11, D12, D19;
notes/assumptions/4.md; notes/assumptions/18.md; notes/assumptions/20.md. -/
def Obligations.ProgramResetFillsTheProgramCells : Prop :=
  ∀ (s : State) (program : List Cell) (hp : program.length = 6), s.running = false → s.mem.derivedOk →
    (∃ t, takeTurn (.resetProg .zero (some (program.map Fin.val))) s = .next t ∧
      (∀ a : Addr, a.val < 50 → t.cell a = s.cell a) ∧ (∀ a : Addr, 50 ≤ a.val → t.cell a = 0) ∧ t.hist = [] ∧
      t.outLog = s.outLog ∧ t.result = some .ok ∧ s.sameOutside t) ∧
    (∃ t, takeTurn (.resetProg .sample (some (program.map Fin.val))) s = .next t ∧
      (∀ a : Addr, a.val < 50 → t.cell a = s.cell a) ∧
      (∀ (a : Addr) (ha : a.val < 56), 50 ≤ a.val → t.cell a = program[a.val - 50]'(by omega)) ∧
      (∀ a : Addr, 56 ≤ a.val → t.cell a = 0) ∧ t.hist = [] ∧ t.outLog = s.outLog ∧ t.result = some .ok ∧
      s.sameOutside t) ∧
    (∀ mode : ProgMode, takeTurn (.resetProg mode none) s =
      takeTurn (.resetProg mode (some (Config.sampleProgram.map Fin.val))) s)

/-- With the run loop stopped, from every state with canonical memory: RESET_PROG in sample mode followed by RESET_REGS,
both with the defaults, ends in a state whose memory is the created one and whose history is empty, with the log and
the breakpoints as they were; the same with any program of six cells and any seed of 50, for the memory created with
these. (Choices, the spec's own decisions: the created values D8 to D10, entries 3 and 4; the history emptied D11 and
the breakpoints kept D19, entry 20; the log kept D12, entry 18.) Rests on 70_reset_and_hazards.md section 1 (R254);
92_eei_decisions.md D8, D9, D10, D11, D12, D19; notes/assumptions/3.md; notes/assumptions/4.md;
notes/assumptions/18.md; notes/assumptions/20.md. -/
def Obligations.BothResetsGiveTheCreatedMemory : Prop :=
  ∀ s : State, s.running = false → s.mem.wf →
    (∃ t u, takeTurn (.resetProg .sample none) s = .next t ∧ takeTurn (.resetRegs none) t = .next u ∧
      u.mem = State.reset.mem ∧ u.hist = [] ∧ u.outLog = s.outLog ∧ u.bp = s.bp ∧ u.running = false) ∧
    (∀ seed program : List Cell, seed.length = 50 → program.length = 6 → ∃ t u,
      takeTurn (.resetProg .sample (some (program.map Fin.val))) s = .next t ∧
      takeTurn (.resetRegs (some (seed.map Fin.val))) t = .next u ∧ u.mem = (State.created seed program).mem ∧
      u.hist = [] ∧ u.outLog = s.outLog ∧ u.bp = s.bp ∧ u.running = false)

/-- For every WRITE, LOAD, RESET_REGS or RESET_PROG that answers Ok: the history is empty, no event is emitted, and
STEP_BACK then answers EmptyHistory and changes nothing else. TOGGLE_BP, RUN and CANCEL leave the history as it is,
STEP only appends to it (dropping the oldest entry of a full one), STEP_BACK only takes the newest entry. (Choices,
the spec's own decisions: that both resets empty the history is D11, entry 20; that edits and resets leave the log is
D12, entry 18.) Rests on 42_history_and_undo.md section 1 (R165); 43_direct_edit_commands.md; 70_reset_and_hazards.md
section 1; 92_eei_decisions.md D11, D12; notes/assumptions/18.md; notes/assumptions/20.md. -/
def Obligations.DirectEditsForfeitUndo : Prop :=
  (∀ (turn : Turn) (s t : State), ((∃ a v, turn = .write a v) ∨ (∃ image, turn = .load image) ∨
    (∃ seed, turn = .resetRegs seed) ∨ ∃ mode program, turn = .resetProg mode program) → takeTurn turn s = .next t →
    t.result = some .ok → t.hist = [] ∧ t.outLog = s.outLog ∧
      takeTurn .stepBack t = .next { t with result := some .emptyHistory }) ∧
  (∀ (turn : Turn) (s t : State), ((∃ a, turn = .toggleBp a) ∨ turn = .run ∨ turn = .cancel) →
    takeTurn turn s = .next t → t.hist = s.hist) ∧
  (∀ s t : State, takeTurn .step s = .next t → t.hist = s.hist ∨
    ∃ e, t.hist = (if s.hist.length = 100 then s.hist.tail else s.hist) ++ [e]) ∧
  (∀ s t : State, takeTurn .stepBack s = .next t → t.hist = s.hist.dropLast)

/-- For every state, running or not: a read of an address 0 to 99 returns that cell and changes nothing else; a read above
99 answers InvalidAddress and changes nothing else. Rests on 20_memory.md section 4; 43_direct_edit_commands.md. -/
def Obligations.HostReadReturnsTheCell : Prop :=
  ∀ s : State, (∀ a : Addr, takeTurn (.read a.val) s = .next { s with result := some (.value (s.cell a)) }) ∧
    (∀ n : Nat, 99 < n → takeTurn (.read n) s = .next { s with result := some .invalidAddress })

/-- For every state, running or not, whose breakpoint set is well formed, and every address 50 to 99: TOGGLE_BP answers
whether the address is now in the set; every other address is in the set as before; the set is well formed again;
every other field of the state but the result is as it was. Rule R200 of the spec. -/
def Obligations.ToggleBreakpointFlipsMembership : Prop :=
  ∀ (s : State) (a : Addr), bpWf s.bp → 50 ≤ a.val → ∃ t, takeTurn (.toggleBp a.val) s = .next t ∧
    t = { s with bp := t.bp, result := some (.member (decide (a ∉ s.bp))) } ∧ (a ∈ t.bp ↔ a ∉ s.bp) ∧
    (∀ b, b ≠ a → (b ∈ t.bp ↔ b ∈ s.bp)) ∧ bpWf t.bp

/-- For every state and every address below 50 or above 99: TOGGLE_BP answers InvalidAddress and changes nothing else.
(The spec's own decision D18, entry 20.) Rests on 44_run_controller.md; 92_eei_decisions.md D18;
notes/assumptions/20.md. -/
def Obligations.BreakpointsOutsideProgramCellsAreRejected : Prop :=
  ∀ (s : State) (addr : Nat), (addr < 50 ∨ 99 < addr) →
    takeTurn (.toggleBp addr) s = .next { s with result := some .invalidAddress }

/-- For every state: a turn that is no TOGGLE_BP leaves the breakpoint set; and an instruction of the table, whatever it
is, leaves breakpoints, run flag, the loop's own fields, schedule and report. (That no reset, load or edit changes the
set is the spec's own decision D19, entry 20.) Rests on 10_state.md section 4; 60_exceptions.md section 5;
92_eei_decisions.md D19; notes/assumptions/20.md. -/
def Obligations.OnlyToggleChangesBreakpoints : Prop :=
  (∀ (turn : Turn) (s t : State), takeTurn turn s = .next t → t.bp = s.bp ∨ ∃ a, turn = .toggleBp a) ∧
  (∀ (i : Instr) (s t : State), exec i s = .next t → s.sameOutside t)

/-- For every state: with RUNNING false, RUN sets it, with the loop about to start its first iteration and no cancel
requested; with RUNNING true, RUN changes nothing. (Choices: that RUN has no effect while RUNNING is the spec's own
decision D21, entry 13; the loop's two fields are the model's, entry 12; that RUN leaves the result and the report as
they were is entry 26.) Rests on 44_run_controller.md; 92_eei_decisions.md D21; notes/assumptions/12.md;
notes/assumptions/13.md; notes/assumptions/26.md. -/
def Obligations.RunStartsTheLoopAndNothingElse : Prop :=
  ∀ s : State,
    (s.running = false → takeTurn .run s = .next { s with running := true, atDelay := false, cancelRequested := false }) ∧
    (s.running = true → takeTurn .run s = .next s)

/-- For every state in which the loop is about to start an iteration: with the counter above 99 the controller's move
stops it with Fault and no step; at a word 0 it stops with Halted and no step; otherwise it makes exactly the
transition STEP makes, to u, and then: if u's counter is a breakpoint it stops with Breakpoint; else if the word's
source is 12 it stops with InputWait; else it enters the delay, still running. In the delay, with no cancel requested,
the move ends the delay and changes nothing else, so that the next one is an iteration; with one requested it stops
with Cancelled. While the loop is stopped the move changes nothing. (Choices: the stop with Fault is the spec's own
decision D25, entry 9; that the delay is a second move is the model's, entry 12; where the report stands is entry 10.)
Rests on 44_run_controller.md; 92_eei_decisions.md D25; notes/assumptions/12.md; notes/assumptions/9.md;
notes/assumptions/10.md. -/
def Obligations.LoopIterationStopsForItsReasons : Prop :=
  (∀ s : State, s.running = true → s.atDelay = false →
    (99 < s.pc.val → takeTurn .controller s = .next (s.stopLoop .fault)) ∧
    (s.halted → takeTurn .controller s = .next (s.stopLoop .halted)) ∧
    (∀ w : Cell, s.word? = some w → w ≠ 0 → ∃ u, commandStep s = .next u ∧
      ((∃ b ∈ u.bp, b.val = u.pc.val) → takeTurn .controller s = .next (u.stopLoop .breakpoint)) ∧
      ((¬ ∃ b ∈ u.bp, b.val = u.pc.val) → w.val / 100 = 12 →
        takeTurn .controller s = .next (u.stopLoop .inputWait)) ∧
      ((¬ ∃ b ∈ u.bp, b.val = u.pc.val) → w.val / 100 ≠ 12 →
        takeTurn .controller s = .next { u with atDelay := true }))) ∧
  (∀ s : State, s.running = true → s.atDelay = true →
    (s.cancelRequested = false → takeTurn .controller s = .next { s with atDelay := false }) ∧
    (s.cancelRequested = true → takeTurn .controller s = .next (s.stopLoop .cancelled))) ∧
  (∀ s : State, s.running = false → takeTurn .controller s = .next s)

/-- For every state. With the loop running, CANCEL only records the request. In the delay, the controller's next move
stops the loop with Cancelled and no STEP. Before an iteration, the controller's next move is that iteration as if
nothing were requested: it stops with Fault or Halted and no STEP, or makes the STEP and stops with Breakpoint or
InputWait, or makes the STEP and enters the delay, and only then the move after it stops the loop with Cancelled, in
the memory, history and log the STEP left. With the loop stopped CANCEL has no effect. (Choices: the loop's two moves,
the recorded request and its loss at another stop are the model's, entry 12; Fault is D25, entry 9; that CANCEL
returns nothing is entry 26.) Rests on 44_run_controller.md (R203, R209); 92_eei_decisions.md D25;
notes/assumptions/9.md; notes/assumptions/12.md; notes/assumptions/26.md. -/
def Obligations.CancelIsSeenAtTheDelayBoundary : Prop :=
  (∀ s : State, s.running = true → takeTurn .cancel s = .next { s with cancelRequested := true }) ∧
  (∀ s c : State, s.running = true → s.atDelay = true → takeTurn .cancel s = .next c →
    takeTurn .controller c = .next (s.stopLoop .cancelled)) ∧
  (∀ s c : State, s.running = true → s.atDelay = false → takeTurn .cancel s = .next c →
    (99 < s.pc.val → takeTurn .controller c = .next (s.stopLoop .fault)) ∧
    (s.halted → takeTurn .controller c = .next (s.stopLoop .halted)) ∧
    (∀ w : Cell, s.word? = some w → w ≠ 0 → ∃ u, commandStep c = .next u ∧
      ((∃ b ∈ u.bp, b.val = u.pc.val) → takeTurn .controller c = .next (u.stopLoop .breakpoint)) ∧
      ((¬ ∃ b ∈ u.bp, b.val = u.pc.val) → w.val / 100 = 12 →
        takeTurn .controller c = .next (u.stopLoop .inputWait)) ∧
      ((¬ ∃ b ∈ u.bp, b.val = u.pc.val) → w.val / 100 ≠ 12 → ∃ d, takeTurn .controller c = .next d ∧
        d = { u with atDelay := true } ∧ takeTurn .controller d = .next (u.stopLoop .cancelled)))) ∧
  (∀ s : State, s.running = false → takeTurn .cancel s = .next s)

/-- For every state with RUNNING true: STEP, STEP_BACK, WRITE, LOAD, RESET_REGS and RESET_PROG all end in the fault
manualWhileRunning. (The spec's own decision D21: the model says nothing of such a run; entry 13.) Rests on
44_run_controller.md; 92_eei_decisions.md D21; notes/assumptions/13.md. -/
def Obligations.ManualCommandsWhileRunningHaveNoTransition : Prop :=
  ∀ s : State, s.running = true →
    takeTurn .step s = .fault .manualWhileRunning ∧ takeTurn .stepBack s = .fault .manualWhileRunning ∧
    (∀ a v, takeTurn (.write a v) s = .fault .manualWhileRunning) ∧
    (∀ image, takeTurn (.load image) s = .fault .manualWhileRunning) ∧
    (∀ seed, takeTurn (.resetRegs seed) s = .fault .manualWhileRunning) ∧
    (∀ mode program, takeTurn (.resetProg mode program) s = .fault .manualWhileRunning)
end

