-- ==== Sys2Proof/Laws/PerInstr.lean ====
section
/-! SUPPORT. Facts made per instruction, one lemma per constructor of Instr: `EncodesOperands` says that a row's word is a cell
value whose two halves are the row's operands (R90, R110). -/

namespace Sys2Proof.Laws

/-- The word of a row is below 10000, its upper two digits the source and its lower two the destination. -/
def EncodesOperands.Statement (i : Instr) : Prop :=
  i.inRow = true → encode i < 10000 ∧ encode i / 100 = i.src ∧ encode i % 100 = i.dst

/-- The number `100*src + dst` of two addresses splits into them again. -/
theorem joinWord_split {s d : Nat} (hs : s < 100) (hd : d < 100) :
    joinWord s d < 10000 ∧ joinWord s d / 100 = s ∧ joinWord s d % 100 = d := by
  unfold joinWord; omega

theorem EncodesOperands.halt : EncodesOperands.Statement .halt := by
  intro _; decide

theorem EncodesOperands.mov (src : Nat) (dst : Nat) : EncodesOperands.Statement (.mov src dst) := by
  intro h
  simp [Instr.inRow] at h
  exact joinWord_split (by simp only [Instr.src]; omega) (by simp only [Instr.dst]; omega)

theorem EncodesOperands.movToHalt (src : Nat) : EncodesOperands.Statement (.movToHalt src) := by
  intro h
  simp [Instr.inRow] at h
  exact joinWord_split (by simp only [Instr.src]; omega) (by simp only [Instr.dst]; omega)

theorem EncodesOperands.movToPc (src : Nat) : EncodesOperands.Statement (.movToPc src) := by
  intro h
  simp [Instr.inRow] at h
  exact joinWord_split (by simp only [Instr.src]; omega) (by simp only [Instr.dst]; omega)

theorem EncodesOperands.movToA (src : Nat) : EncodesOperands.Statement (.movToA src) := by
  intro h
  simp [Instr.inRow] at h
  exact joinWord_split (by simp only [Instr.src]; omega) (by simp only [Instr.dst]; omega)

theorem EncodesOperands.movToB (src : Nat) : EncodesOperands.Statement (.movToB src) := by
  intro h
  simp [Instr.inRow] at h
  exact joinWord_split (by simp only [Instr.src]; omega) (by simp only [Instr.dst]; omega)

theorem EncodesOperands.movToSum (src : Nat) : EncodesOperands.Statement (.movToSum src) := by
  intro h
  simp [Instr.inRow] at h
  exact joinWord_split (by simp only [Instr.src]; omega) (by simp only [Instr.dst]; omega)

theorem EncodesOperands.movToSub (src : Nat) : EncodesOperands.Statement (.movToSub src) := by
  intro h
  simp [Instr.inRow] at h
  exact joinWord_split (by simp only [Instr.src]; omega) (by simp only [Instr.dst]; omega)

theorem EncodesOperands.movToCmp (src : Nat) : EncodesOperands.Statement (.movToCmp src) := by
  intro h
  simp [Instr.inRow] at h
  exact joinWord_split (by simp only [Instr.src]; omega) (by simp only [Instr.dst]; omega)

theorem EncodesOperands.movToTrn (src : Nat) : EncodesOperands.Statement (.movToTrn src) := by
  intro h
  simp [Instr.inRow] at h
  exact joinWord_split (by simp only [Instr.src]; omega) (by simp only [Instr.dst]; omega)

theorem EncodesOperands.movToC (src : Nat) : EncodesOperands.Statement (.movToC src) := by
  intro h
  simp [Instr.inRow] at h
  exact joinWord_split (by simp only [Instr.src]; omega) (by simp only [Instr.dst]; omega)

theorem EncodesOperands.movToOut (src : Nat) : EncodesOperands.Statement (.movToOut src) := by
  intro h
  simp [Instr.inRow] at h
  exact joinWord_split (by simp only [Instr.src]; omega) (by simp only [Instr.dst]; omega)

theorem EncodesOperands.movToRom (src : Nat) (dst : Nat) : EncodesOperands.Statement (.movToRom src dst) := by
  intro h
  simp [Instr.inRow] at h
  exact joinWord_split (by simp only [Instr.src]; omega) (by simp only [Instr.dst]; omega)

theorem EncodesOperands.movFromHalt (dst : Nat) : EncodesOperands.Statement (.movFromHalt dst) := by
  intro h
  simp [Instr.inRow] at h
  exact joinWord_split (by simp only [Instr.src]; omega) (by simp only [Instr.dst]; omega)

theorem EncodesOperands.movFromPc (dst : Nat) : EncodesOperands.Statement (.movFromPc dst) := by
  intro h
  simp [Instr.inRow] at h
  exact joinWord_split (by simp only [Instr.src]; omega) (by simp only [Instr.dst]; omega)

theorem EncodesOperands.movFromSum (dst : Nat) : EncodesOperands.Statement (.movFromSum dst) := by
  intro h
  simp [Instr.inRow] at h
  exact joinWord_split (by simp only [Instr.src]; omega) (by simp only [Instr.dst]; omega)

theorem EncodesOperands.movFromSub (dst : Nat) : EncodesOperands.Statement (.movFromSub dst) := by
  intro h
  simp [Instr.inRow] at h
  exact joinWord_split (by simp only [Instr.src]; omega) (by simp only [Instr.dst]; omega)

theorem EncodesOperands.movFromCmp (dst : Nat) : EncodesOperands.Statement (.movFromCmp dst) := by
  intro h
  simp [Instr.inRow] at h
  exact joinWord_split (by simp only [Instr.src]; omega) (by simp only [Instr.dst]; omega)

theorem EncodesOperands.movFromTrn (dst : Nat) : EncodesOperands.Statement (.movFromTrn dst) := by
  intro h
  simp [Instr.inRow] at h
  exact joinWord_split (by simp only [Instr.src]; omega) (by simp only [Instr.dst]; omega)

theorem EncodesOperands.movFromIn (dst : Nat) : EncodesOperands.Statement (.movFromIn dst) := by
  intro h
  simp [Instr.inRow] at h
  exact joinWord_split (by simp only [Instr.src]; omega) (by simp only [Instr.dst]; omega)

theorem EncodesOperands.movSame (x : Nat) : EncodesOperands.Statement (.movSame x) := by
  intro h
  simp [Instr.inRow] at h
  exact joinWord_split (by simp only [Instr.src]; omega) (by simp only [Instr.dst]; omega)

theorem EncodesOperands.stop : EncodesOperands.Statement .stop := by
  intro _; decide

theorem EncodesOperands.nop : EncodesOperands.Statement .nop := by
  intro _; decide

/-- Every row: its word is a cell value that splits into its operands. -/
theorem encodesOperands (i : Instr) : EncodesOperands.Statement i := by
  cases i
  · exact EncodesOperands.halt
  · exact EncodesOperands.mov _ _
  · exact EncodesOperands.movToHalt _
  · exact EncodesOperands.movToPc _
  · exact EncodesOperands.movToA _
  · exact EncodesOperands.movToB _
  · exact EncodesOperands.movToSum _
  · exact EncodesOperands.movToSub _
  · exact EncodesOperands.movToCmp _
  · exact EncodesOperands.movToTrn _
  · exact EncodesOperands.movToC _
  · exact EncodesOperands.movToOut _
  · exact EncodesOperands.movToRom _ _
  · exact EncodesOperands.movFromHalt _
  · exact EncodesOperands.movFromPc _
  · exact EncodesOperands.movFromSum _
  · exact EncodesOperands.movFromSub _
  · exact EncodesOperands.movFromCmp _
  · exact EncodesOperands.movFromTrn _
  · exact EncodesOperands.movFromIn _
  · exact EncodesOperands.movSame _
  · exact EncodesOperands.stop
  · exact EncodesOperands.nop

end Sys2Proof.Laws
end

