-- ==== Sys2Proof/Laws/Decode.lean ====
section
/-! SUPPORT. The row `classify` picks carries the operands it was given, so the choice of a row adds no decoding information
(R101 of 30_encoding.md). -/

namespace Sys2Proof

theorem classifySrc_operands (s d : Nat) : (classifySrc s d).src = s ∧ (classifySrc s d).dst = d := by
  unfold classifySrc; split <;> exact ⟨rfl, rfl⟩

theorem classifyDst_operands (s d : Nat) : (classifyDst s d).src = s ∧ (classifyDst s d).dst = d := by
  unfold classifyDst
  split
  case h_11 =>
    split
    · exact ⟨rfl, rfl⟩
    · exact classifySrc_operands s d
  all_goals exact ⟨rfl, rfl⟩

theorem classify_operands (s d : Nat) : (classify s d).src = s ∧ (classify s d).dst = d := by
  unfold classify
  split
  · next h => exact ⟨h.1.symm, h.2.symm⟩
  split
  · next h => exact ⟨h.1.symm, h.2.symm⟩
  split
  · next h => exact ⟨rfl, h⟩
  · exact classifyDst_operands s d

theorem classify_ne_halt (s d : Nat) : classify s d ≠ .halt := by
  unfold classify classifyDst classifySrc
  repeat' split
  all_goals exact Instr.noConfusion

theorem decodeCell_zero : decodeCell 0 = .halt := rfl

theorem decodeCell_of_ne_zero {w : Cell} (h : w ≠ 0) : decodeCell w = classify (w.val / 100) (w.val % 100) := by
  have : w.val ≠ 0 := fun e => h (Fin.ext e)
  simp [decodeCell, splitWord, this]

/-- The decoded operands are the two halves of the word (R110). -/
theorem decodeCell_operands (w : Cell) : (decodeCell w).src = w.val / 100 ∧ (decodeCell w).dst = w.val % 100 := by
  by_cases h : w = 0
  · subst h; exact ⟨rfl, rfl⟩
  · rw [decodeCell_of_ne_zero h]; exact classify_operands _ _

theorem decodeCell_eq_halt {w : Cell} : decodeCell w = .halt ↔ w = 0 := by
  constructor
  · intro h
    by_contra hw
    rw [decodeCell_of_ne_zero hw] at h
    exact classify_ne_halt _ _ h
  · rintro rfl; rfl

end Sys2Proof
end

