-- ==== Sys2Proof/Laws/Memory.lean ====
section
/-! SUPPORT. Lemmas about memory: reading after each operation, the canonical form kept by each, and that two canonical
memories with the same cells are the same list. -/

namespace Sys2Proof.Machine

@[simp] theorem Memory.read_nil (a : Addr) : Memory.read [] a = 0 := rfl

@[simp] theorem Memory.read_cons (k : Addr) (v : Cell) (m : Memory) (a : Addr) :
    Memory.read ((k, v) :: m) a = if k = a then v else m.read a := rfl

theorem Memory.read_erase (m : Memory) (a b : Addr) :
    (m.erase a).read b = if b = a then 0 else m.read b := by
  induction m with
  | nil => simp [Memory.erase]
  | cons e m ih =>
    obtain ⟨k, v⟩ := e
    by_cases hk : k = a
    · simp only [Memory.erase, hk, if_true, ih, Memory.read_cons]
      by_cases hb : b = a
      · simp [hb]
      · simp [hb, Ne.symm hb]
    · simp only [Memory.erase, hk, if_false, Memory.read_cons, ih]
      by_cases hb : b = a
      · subst hb; simp [hk]
      · simp [hb]

theorem Memory.read_insert (m : Memory) (a : Addr) (v : Cell) (fresh : ∀ e ∈ m, e.1 ≠ a) (b : Addr) :
    (m.insert a v).read b = if b = a then v else m.read b := by
  induction m with
  | nil => simp only [Memory.insert, Memory.read_cons, Memory.read_nil, eq_comm]
  | cons e m ih =>
    obtain ⟨k, w⟩ := e
    have hka : k ≠ a := fresh (k, w) (by simp)
    have ih' := ih fun e he => fresh e (by simp [he])
    by_cases hlt : a < k
    · simp only [Memory.insert, hlt, if_true, Memory.read_cons, eq_comm]
    · simp only [Memory.insert, hlt, if_false, Memory.read_cons, ih']
      by_cases hb : b = a
      · subst hb; simp [hka]
      · simp [hb]

theorem Memory.mem_erase {m : Memory} {a : Addr} {e : Addr × Cell} : e ∈ m.erase a ↔ e ∈ m ∧ e.1 ≠ a := by
  induction m with
  | nil => simp [Memory.erase]
  | cons x m ih =>
    obtain ⟨k, v⟩ := x
    by_cases hk : k = a
    · simp only [Memory.erase, hk, if_true, ih, List.mem_cons]
      constructor
      · rintro ⟨h, hne⟩; exact ⟨.inr h, hne⟩
      · rintro ⟨rfl | h, hne⟩
        · exact absurd rfl hne
        · exact ⟨h, hne⟩
    · simp only [Memory.erase, hk, if_false, List.mem_cons, ih]
      constructor
      · rintro (rfl | ⟨h, hne⟩)
        · exact ⟨.inl rfl, hk⟩
        · exact ⟨.inr h, hne⟩
      · rintro ⟨rfl | h, hne⟩
        · exact .inl rfl
        · exact .inr ⟨h, hne⟩

theorem Memory.mem_insert {m : Memory} {a : Addr} {v : Cell} {e : Addr × Cell} :
    e ∈ m.insert a v ↔ e = (a, v) ∨ e ∈ m := by
  induction m with
  | nil => simp [Memory.insert]
  | cons x m ih =>
    obtain ⟨k, w⟩ := x
    by_cases hlt : a < k
    · simp [Memory.insert, hlt]
    · simp only [Memory.insert, hlt, if_false, List.mem_cons, ih]
      tauto

/-- A cell after a write: the value at the written address, the old value elsewhere. It holds of every list, canonical or not. -/
@[simp] theorem Memory.read_write (m : Memory) (a : Addr) (v : Cell) (b : Addr) :
    (m.write a v).read b = if b = a then v else m.read b := by
  unfold Memory.write
  split
  · next h => rw [Memory.read_erase]; simp only [h]
  · rw [Memory.read_insert _ _ _ (fun e he => (Memory.mem_erase.mp he).2), Memory.read_erase]
    split <;> simp_all

/-- The canonical form, pair by pair. -/
theorem Memory.wf_iff {m : Memory} :
    m.wf ↔ m.Pairwise (fun x y => x.1 < y.1) ∧ ∀ e ∈ m, e.2 ≠ Config.blank := by
  simp only [Memory.wf, List.mem_map, not_exists, not_and, ne_eq]

theorem Memory.wf_erase {m : Memory} (h : m.wf) (a : Addr) : (m.erase a).wf := by
  rw [Memory.wf_iff] at h ⊢
  refine ⟨?_, fun e he => h.2 e (Memory.mem_erase.mp he).1⟩
  induction m with
  | nil => simp [Memory.erase]
  | cons x m ih =>
    obtain ⟨k, v⟩ := x
    have hp := List.pairwise_cons.mp h.1
    have ih' := ih ⟨hp.2, fun e he => h.2 e (List.mem_cons_of_mem _ he)⟩
    by_cases hk : k = a
    · simpa only [Memory.erase, hk, if_true] using ih'
    · simp only [Memory.erase, hk, if_false]
      exact List.pairwise_cons.mpr ⟨fun e he => hp.1 e (Memory.mem_erase.mp he).1, ih'⟩

theorem Memory.wf_insert {m : Memory} (h : m.wf) {a : Addr} {v : Cell} (fresh : ∀ e ∈ m, e.1 ≠ a)
    (hv : v ≠ Config.blank) : (m.insert a v).wf := by
  rw [Memory.wf_iff] at h ⊢
  refine ⟨?_, fun e he => ?_⟩
  · induction m with
    | nil => simp [Memory.insert]
    | cons x m ih =>
      obtain ⟨k, w⟩ := x
      have hp := List.pairwise_cons.mp h.1
      by_cases hlt : a < k
      · simp only [Memory.insert, hlt, if_true]
        refine List.pairwise_cons.mpr ⟨fun e he => ?_, h.1⟩
        rcases List.mem_cons.mp he with rfl | he
        · exact hlt
        · exact lt_trans hlt (hp.1 e he)
      · have hka : k < a := lt_of_le_of_ne (not_lt.mp hlt) (fresh (k, w) (by simp))
        simp only [Memory.insert, hlt, if_false]
        refine List.pairwise_cons.mpr ⟨fun e he => ?_, ih ⟨hp.2, fun e he => h.2 e (by simp [he])⟩
          fun e he => fresh e (by simp [he])⟩
        rcases Memory.mem_insert.mp he with rfl | he
        · exact hka
        · exact hp.1 e he
  · rcases Memory.mem_insert.mp he with rfl | he
    · exact hv
    · exact h.2 e he

/-- A write keeps the canonical form. -/
theorem Memory.wf_write {m : Memory} (h : m.wf) (a : Addr) (v : Cell) : (m.write a v).wf := by
  unfold Memory.write
  split
  · exact Memory.wf_erase h a
  · next hv => exact Memory.wf_insert (Memory.wf_erase h a) (fun e he => (Memory.mem_erase.mp he).2) hv

theorem Memory.wf_nil : Memory.wf [] := by simp [Memory.wf]

theorem Memory.read_of_not_listed {m : Memory} {a : Addr} (h : ∀ e ∈ m, e.1 ≠ a) : m.read a = 0 := by
  induction m with
  | nil => rfl
  | cons e m ih =>
    rw [Memory.read_cons, if_neg (h e (by simp))]
    exact ih fun x hx => h x (by simp [hx])

/-- Equal memories are equal data: two canonical memories with the same 100 cells are the same list. -/
theorem Memory.ext_of_wf {m n : Memory} (hm : m.wf) (hn : n.wf) (h : ∀ a, m.read a = n.read a) : m = n := by
  rw [Memory.wf_iff] at hm hn
  induction m generalizing n with
  | nil =>
    cases n with
    | nil => rfl
    | cons e n =>
      have hr := h e.1
      rw [show e = (e.1, e.2) from rfl] at hn hr
      simp only [Memory.read_nil, Memory.read_cons, if_true] at hr
      exact absurd hr.symm (hn.2 _ List.mem_cons_self)
  | cons e m ih =>
    obtain ⟨k, v⟩ := e
    have hpm := List.pairwise_cons.mp hm.1
    have hv : v ≠ 0 := hm.2 (k, v) List.mem_cons_self
    have hm' : ∀ e ∈ m, e.2 ≠ Config.blank := fun e he => hm.2 e (List.mem_cons_of_mem _ he)
    have restm : ∀ a, a ≤ k → Memory.read m a = 0 := fun a ha =>
      Memory.read_of_not_listed fun e he heq => absurd (hpm.1 e he) (by simpa [heq] using ha)
    cases n with
    | nil => exact absurd (by simpa using h k) hv
    | cons e n =>
      obtain ⟨l, w⟩ := e
      have hpn := List.pairwise_cons.mp hn.1
      have hw : w ≠ 0 := hn.2 (l, w) List.mem_cons_self
      have hn' : ∀ e ∈ n, e.2 ≠ Config.blank := fun e he => hn.2 e (List.mem_cons_of_mem _ he)
      have restn : ∀ a, a ≤ l → Memory.read n a = 0 := fun a ha =>
        Memory.read_of_not_listed fun e he heq => absurd (hpn.1 e he) (by simpa [heq] using ha)
      have hk := h k
      have hl := h l
      simp only [Memory.read_cons, if_true] at hk hl
      have hkl : k = l := by
        rcases lt_trichotomy k l with hlt | heq | hgt
        · rw [if_neg hlt.ne', restn k hlt.le] at hk
          exact absurd hk hv
        · exact heq
        · rw [if_neg hgt.ne', restm l hgt.le] at hl
          exact absurd hl.symm hw
      subst hkl
      rw [if_pos rfl] at hk
      subst hk
      congr 1
      refine ih ⟨hpm.2, hm'⟩ ⟨hpn.2, hn'⟩ fun a => ?_
      by_cases hak : a = k
      · rw [hak, restm k le_rfl, restn k le_rfl]
      · simpa [Ne.symm hak] using h a

/-! Derived cells. -/

@[simp] theorem Memory.wf_recompute {m : Memory} (h : m.wf) : m.recompute.wf :=
  Memory.wf_write (Memory.wf_write (Memory.wf_write (Memory.wf_write h _ _) _ _) _ _) _ _

/-- A cell after `recompute` (R118): cells 4 to 7 from cells 2, 3, 8, every other cell unchanged. -/
theorem Memory.read_recompute (m : Memory) (a : Addr) :
    m.recompute.read a =
      if a = Reg.sum then deriveSum (m.read Reg.a) (m.read Reg.b)
      else if a = Reg.sub then deriveSub (m.read Reg.a) (m.read Reg.b)
      else if a = Reg.cmp then deriveCmp (m.read Reg.a) (m.read Reg.b)
      else if a = Reg.trn then deriveTrn (m.read Reg.a) (m.read Reg.b) (m.read Reg.c)
      else m.read a := by
  simp only [Memory.recompute, Memory.read_write, Memory.derived, derive]
  by_cases h7 : a = Reg.trn
  · subst h7; rfl
  by_cases h6 : a = Reg.cmp
  · subst h6; rfl
  by_cases h5 : a = Reg.sub
  · subst h5; rfl
  simp [h5, h6, h7]

/-- A cell that is not one of 4 to 7 is what it was before `recompute`. -/
theorem Memory.read_recompute_of_ne (m : Memory) {a : Addr} (h4 : a ≠ Reg.sum) (h5 : a ≠ Reg.sub) (h6 : a ≠ Reg.cmp)
    (h7 : a ≠ Reg.trn) : m.recompute.read a = m.read a := by
  simp [Memory.read_recompute, h4, h5, h6, h7]

@[simp] theorem Memory.read_recompute_a (m : Memory) : m.recompute.read Reg.a = m.read Reg.a :=
  m.read_recompute_of_ne (by decide) (by decide) (by decide) (by decide)

@[simp] theorem Memory.read_recompute_b (m : Memory) : m.recompute.read Reg.b = m.read Reg.b :=
  m.read_recompute_of_ne (by decide) (by decide) (by decide) (by decide)

@[simp] theorem Memory.read_recompute_c (m : Memory) : m.recompute.read Reg.c = m.read Reg.c :=
  m.read_recompute_of_ne (by decide) (by decide) (by decide) (by decide)

@[simp] theorem Memory.read_recompute_pc (m : Memory) : m.recompute.read Reg.pc = m.read Reg.pc :=
  m.read_recompute_of_ne (by decide) (by decide) (by decide) (by decide)

@[simp] theorem Memory.read_recompute_sum (m : Memory) :
    m.recompute.read Reg.sum = deriveSum (m.read Reg.a) (m.read Reg.b) := by
  rw [Memory.read_recompute]; rfl

@[simp] theorem Memory.read_recompute_sub (m : Memory) :
    m.recompute.read Reg.sub = deriveSub (m.read Reg.a) (m.read Reg.b) := by
  rw [Memory.read_recompute]; rfl

@[simp] theorem Memory.read_recompute_cmp (m : Memory) :
    m.recompute.read Reg.cmp = deriveCmp (m.read Reg.a) (m.read Reg.b) := by
  rw [Memory.read_recompute]; rfl

@[simp] theorem Memory.read_recompute_trn (m : Memory) :
    m.recompute.read Reg.trn = deriveTrn (m.read Reg.a) (m.read Reg.b) (m.read Reg.c) := by
  rw [Memory.read_recompute]; rfl

/-- After `recompute` the derived-register invariant holds (R42), whatever the snapshot was. -/
theorem Memory.derivedOk_recompute (m : Memory) : m.recompute.derivedOk := by
  simp [Memory.derivedOk]

/-! Runs of cells. -/

theorem addrOf_eq_some {n : Nat} {a : Addr} : addrOf n = some a ↔ n = a.val := by
  unfold addrOf
  split
  · next h =>
    constructor
    · intro e; cases e; rfl
    · intro e; exact congrArg some (Fin.ext e)
  · next h =>
    constructor
    · intro e; cases e
    · intro e; exact absurd (e ▸ a.isLt) h

theorem addrOf_eq_none {n : Nat} : addrOf n = none ↔ 100 ≤ n := by
  unfold addrOf
  split <;> simp <;> omega

@[simp] theorem addrOf_val (a : Addr) : addrOf a.val = some a := addrOf_eq_some.mpr rfl

theorem addrOf_of_lt {n : Nat} (h : n < 100) : addrOf n = some ⟨n, h⟩ := by simp [addrOf, h]

theorem Memory.wf_writeRange {m : Memory} (h : m.wf) (start : Nat) (vs : List Cell) :
    (m.writeRange start vs).wf := by
  induction vs generalizing m start with
  | nil => exact h
  | cons v vs ih =>
    simp only [Memory.writeRange]
    apply ih
    cases addrOf start with
    | none => exact h
    | some a => exact Memory.wf_write h a v

/-- A cell after a run of writes from `start`: the run's value where the run reaches, the old value elsewhere. -/
theorem Memory.read_writeRange (m : Memory) (start : Nat) (vs : List Cell) (a : Addr) :
    (m.writeRange start vs).read a =
      if h : start ≤ a.val ∧ a.val - start < vs.length then vs[a.val - start] else m.read a := by
  induction vs generalizing m start with
  | nil => simp [Memory.writeRange]
  | cons v vs ih =>
    rw [Memory.writeRange, ih]
    by_cases hlt : start + 1 ≤ a.val ∧ a.val - (start + 1) < vs.length
    · have hr : start ≤ a.val ∧ a.val - start < (v :: vs).length := by
        simp only [List.length_cons]; omega
      rw [dif_pos hlt, dif_pos hr, List.getElem_cons, dif_neg (by omega)]
      congr 1
    · rw [dif_neg hlt]
      by_cases heq : a.val = start
      · have hr : start ≤ a.val ∧ a.val - start < (v :: vs).length := by
          simp only [List.length_cons]; omega
        have ha : addrOf start = some a := addrOf_eq_some.mpr heq.symm
        rw [dif_pos hr]
        simp [ha, heq]
      · have hr : ¬ (start ≤ a.val ∧ a.val - start < (v :: vs).length) := by
          simp only [List.length_cons]; omega
        rw [dif_neg hr]
        cases hs : addrOf start with
        | none => rfl
        | some b =>
          have hb := addrOf_eq_some.mp hs
          have hne : a ≠ b := fun e => heq (by rw [e, hb])
          simp [hne]

theorem Memory.wf_ofImage (image : List Cell) : (Memory.ofImage image).wf :=
  Memory.wf_recompute (Memory.wf_writeRange Memory.wf_nil _ _)

theorem Memory.wf_resetRegs {m : Memory} (h : m.wf) (seed : List Cell) : (m.resetRegs seed).wf :=
  Memory.wf_recompute (Memory.wf_writeRange h _ _)

theorem Memory.wf_resetProg {m : Memory} (h : m.wf) (program : List Cell) (mode : ProgMode) :
    (m.resetProg program mode).wf := by
  cases mode
  · exact Memory.wf_recompute (Memory.wf_writeRange h _ _)
  · exact Memory.wf_recompute (Memory.wf_writeRange (Memory.wf_writeRange h _ _) _ _)

theorem Memory.derivedOk_resetProg (m : Memory) (program : List Cell) (mode : ProgMode) :
    (m.resetProg program mode).derivedOk := by
  cases mode <;> exact Memory.derivedOk_recompute _

/-- A cell of the program, or any address from 8 up, is none of the derived cells. -/
theorem Memory.read_recompute_high (m : Memory) {a : Addr} (h : 8 ≤ a.val) : m.recompute.read a = m.read a := by
  have hne : ∀ k : Addr, k.val < 8 → a ≠ k := fun k hk e => by rw [e] at h; omega
  exact m.read_recompute_of_ne (hne _ (by decide)) (hne _ (by decide)) (hne _ (by decide)) (hne _ (by decide))

/-- `recompute` reads cells 2, 3, 8 only, so snapshots that agree below 50 have the same cells below 50 after it. -/
theorem Memory.read_recompute_congr {m n : Memory} (h : ∀ b : Addr, b.val < 50 → m.read b = n.read b) {a : Addr}
    (ha : a.val < 50) : m.recompute.read a = n.recompute.read a := by
  simp only [Memory.read_recompute, h _ ha, h Reg.a (by decide), h Reg.b (by decide), h Reg.c (by decide)]

/-- Where the derived cells follow A, B, C already, `recompute` changes no cell. -/
theorem Memory.read_recompute_of_derivedOk {m : Memory} (h : m.derivedOk) (a : Addr) : m.recompute.read a = m.read a := by
  obtain ⟨h4, h5, h6, h7⟩ := h
  rw [Memory.read_recompute]
  split
  · next e => rw [e, h4]
  split
  · next e => rw [e, h5]
  split
  · next e => rw [e, h6]
  split
  · next e => rw [e, h7]
  rfl

/-- A cell after a load: the image's, cells 4 to 7 recomputed (R184). -/
theorem Memory.read_ofImage {image : List Cell} (h : image.length = 100) {a : Addr} (h4 : a ≠ Reg.sum) (h5 : a ≠ Reg.sub)
    (h6 : a ≠ Reg.cmp) (h7 : a ≠ Reg.trn) : (Memory.ofImage image).read a = image[a.val]'(by omega) := by
  rw [Memory.ofImage, Memory.read_recompute_of_ne _ h4 h5 h6 h7, Memory.read_writeRange, dif_pos (by omega)]
  rfl

/-- A program cell after the register reset is what it was (R252). -/
theorem Memory.read_resetRegs_high (m : Memory) {seed : List Cell} (h : seed.length = 50) {a : Addr} (ha : 50 ≤ a.val) :
    (m.resetRegs seed).read a = m.read a := by
  rw [Memory.resetRegs, Memory.read_recompute_high _ (by omega), Memory.read_writeRange, dif_neg (by omega)]

/-- A cell of 0 to 49 after the register reset: the seed's, cells 4 to 7 recomputed (R252). -/
theorem Memory.read_resetRegs_low (m : Memory) {seed : List Cell} (h : seed.length = 50) {a : Addr} (ha : a.val < 50)
    (h4 : a ≠ Reg.sum) (h5 : a ≠ Reg.sub) (h6 : a ≠ Reg.cmp) (h7 : a ≠ Reg.trn) :
    (m.resetRegs seed).read a = seed[a.val]'(by omega) := by
  rw [Memory.resetRegs, Memory.read_recompute_of_ne _ h4 h5 h6 h7, Memory.read_writeRange, dif_pos (by omega)]
  rfl

/-- A cell of 0 to 49 after the program reset is what `recompute` makes of it (R253). -/
theorem Memory.read_resetProg_low (m : Memory) (program : List Cell) (mode : ProgMode) {a : Addr} (ha : a.val < 50) :
    (m.resetProg program mode).read a = m.recompute.read a := by
  cases mode <;> simp only [Memory.resetProg] <;> refine Memory.read_recompute_congr (fun b hb => ?_) ha <;>
    simp only [Memory.read_writeRange, Config.romBase, show ¬ 50 ≤ b.val by omega, false_and, dite_false]

/-- A program cell after the program reset: 0, or in sample mode the sample program's word where it has one (R253). -/
theorem Memory.read_resetProg_high (m : Memory) (program : List Cell) (mode : ProgMode) {a : Addr} (ha : 50 ≤ a.val) :
    (m.resetProg program mode).read a =
      match mode with
      | .zero => 0
      | .sample => if h : a.val - 50 < program.length then program[a.val - 50] else 0 := by
  cases mode <;> simp only [Memory.resetProg, Memory.read_recompute_high _ (show 8 ≤ a.val by omega),
    Memory.read_writeRange, Config.romBase, ha, true_and, List.length_replicate, List.getElem_replicate,
    show a.val - 50 < 50 by omega, dite_true]

theorem Memory.wf_created (seed program : List Cell) : (Memory.created seed program).wf :=
  Memory.wf_resetProg (Memory.wf_resetRegs Memory.wf_nil seed) program .sample

theorem Memory.derivedOk_created (seed program : List Cell) : (Memory.created seed program).derivedOk :=
  Memory.derivedOk_resetProg _ program .sample

/-- A cell of 0 to 49 of the created memory is what the register reset of empty memory makes it (R250). -/
theorem Memory.read_created_low (seed program : List Cell) {a : Addr} (ha : a.val < 50) :
    (Memory.created seed program).read a = (Memory.resetRegs seed []).read a :=
  (Memory.read_resetProg_low _ program .sample ha).trans
    (Memory.read_recompute_of_derivedOk (m := Memory.resetRegs seed []) (Memory.derivedOk_recompute _) a)

/-- A program cell of the created memory: the sample program's word where it has one, else 0 (R250). -/
theorem Memory.read_created_high (seed program : List Cell) {a : Addr} (ha : 50 ≤ a.val) :
    (Memory.created seed program).read a =
      if h : a.val - 50 < program.length then program[a.val - 50] else 0 :=
  Memory.read_resetProg_high _ program .sample ha

end Sys2Proof.Machine
end

