-- ==== Sys2Proof/Laws/State.lean ====
section
/-! SUPPORT. One lemma per field of State per shared update, and the reads of a cell through each update. -/

namespace Sys2Proof.Machine

/-- The created memory, listed (R50, R250): the counter and the sample program; every other cell is 0. -/
theorem State.reset_mem :
    State.reset.mem = [(1, 50), (50, 209), (51, 302), (52, 903), (53, 211), (54, 311), (55, 1)] := by decide +kernel

/-- The created memory by its name (R250). -/
theorem State.reset_mem_created : State.reset.mem = Memory.created Config.regSeed Config.sampleProgram := by
  simp only [State.reset, State.created]

/-! `State.created` -/

@[simp] theorem State.created_mem (seed program : List Cell) :
    (State.created seed program).mem = Memory.created seed program := rfl
@[simp] theorem State.created_hist (seed program : List Cell) : (State.created seed program).hist = [] := rfl
@[simp] theorem State.created_outLog (seed program : List Cell) : (State.created seed program).outLog = [] := rfl
@[simp] theorem State.created_bp (seed program : List Cell) : (State.created seed program).bp = [] := rfl
@[simp] theorem State.created_running (seed program : List Cell) : (State.created seed program).running = false := rfl
@[simp] theorem State.created_atDelay (seed program : List Cell) : (State.created seed program).atDelay = false := rfl
@[simp] theorem State.created_cancelRequested (seed program : List Cell) :
    (State.created seed program).cancelRequested = false := rfl
@[simp] theorem State.created_schedule (seed program : List Cell) : (State.created seed program).schedule = [] := rfl
@[simp] theorem State.created_result (seed program : List Cell) : (State.created seed program).result = none := rfl
@[simp] theorem State.created_report (seed program : List Cell) : (State.created seed program).report = none := rfl

/-! `State.answer` -/

@[simp] theorem State.answer_mem (s : State) (r : Result) : (s.answer r).mem = s.mem := rfl
@[simp] theorem State.answer_hist (s : State) (r : Result) : (s.answer r).hist = s.hist := rfl
@[simp] theorem State.answer_outLog (s : State) (r : Result) : (s.answer r).outLog = s.outLog := rfl
@[simp] theorem State.answer_bp (s : State) (r : Result) : (s.answer r).bp = s.bp := rfl
@[simp] theorem State.answer_running (s : State) (r : Result) : (s.answer r).running = s.running := rfl
@[simp] theorem State.answer_atDelay (s : State) (r : Result) : (s.answer r).atDelay = s.atDelay := rfl
@[simp] theorem State.answer_cancelRequested (s : State) (r : Result) : (s.answer r).cancelRequested = s.cancelRequested := rfl
@[simp] theorem State.answer_schedule (s : State) (r : Result) : (s.answer r).schedule = s.schedule := rfl
@[simp] theorem State.answer_result (s : State) (r : Result) : (s.answer r).result = some r := rfl
@[simp] theorem State.answer_report (s : State) (r : Result) : (s.answer r).report = s.report := rfl

/-! `State.moved` -/

@[simp] theorem State.moved_mem (s : State) (pc src dst : Addr) : (s.moved pc src dst).mem = s.mem.move src dst := rfl
@[simp] theorem State.moved_hist (s : State) (pc src dst : Addr) : (s.moved pc src dst).hist = History.push s.hist (entryOf s.mem pc src dst) := rfl
@[simp] theorem State.moved_outLog (s : State) (pc src dst : Addr) : (s.moved pc src dst).outLog = emitIfOut s.outLog dst (s.cell src) := rfl
@[simp] theorem State.moved_bp (s : State) (pc src dst : Addr) : (s.moved pc src dst).bp = s.bp := rfl
@[simp] theorem State.moved_running (s : State) (pc src dst : Addr) : (s.moved pc src dst).running = s.running := rfl
@[simp] theorem State.moved_atDelay (s : State) (pc src dst : Addr) : (s.moved pc src dst).atDelay = s.atDelay := rfl
@[simp] theorem State.moved_cancelRequested (s : State) (pc src dst : Addr) : (s.moved pc src dst).cancelRequested = s.cancelRequested := rfl
@[simp] theorem State.moved_schedule (s : State) (pc src dst : Addr) : (s.moved pc src dst).schedule = s.schedule := rfl
@[simp] theorem State.moved_result (s : State) (pc src dst : Addr) : (s.moved pc src dst).result = some (.stepped src dst (s.cell src)) := rfl
@[simp] theorem State.moved_report (s : State) (pc src dst : Addr) : (s.moved pc src dst).report = s.report := rfl

/-! `State.edited` -/

@[simp] theorem State.edited_mem (s : State) (m : Memory) : (s.edited m).mem = m := rfl
@[simp] theorem State.edited_hist (s : State) (m : Memory) : (s.edited m).hist = [] := rfl
@[simp] theorem State.edited_outLog (s : State) (m : Memory) : (s.edited m).outLog = s.outLog := rfl
@[simp] theorem State.edited_bp (s : State) (m : Memory) : (s.edited m).bp = s.bp := rfl
@[simp] theorem State.edited_running (s : State) (m : Memory) : (s.edited m).running = s.running := rfl
@[simp] theorem State.edited_atDelay (s : State) (m : Memory) : (s.edited m).atDelay = s.atDelay := rfl
@[simp] theorem State.edited_cancelRequested (s : State) (m : Memory) : (s.edited m).cancelRequested = s.cancelRequested := rfl
@[simp] theorem State.edited_schedule (s : State) (m : Memory) : (s.edited m).schedule = s.schedule := rfl
@[simp] theorem State.edited_result (s : State) (m : Memory) : (s.edited m).result = some .ok := rfl
@[simp] theorem State.edited_report (s : State) (m : Memory) : (s.edited m).report = s.report := rfl

/-! `State.stopLoop` -/

@[simp] theorem State.stopLoop_mem (s : State) (r : StopReason) : (s.stopLoop r).mem = s.mem := rfl
@[simp] theorem State.stopLoop_hist (s : State) (r : StopReason) : (s.stopLoop r).hist = s.hist := rfl
@[simp] theorem State.stopLoop_outLog (s : State) (r : StopReason) : (s.stopLoop r).outLog = s.outLog := rfl
@[simp] theorem State.stopLoop_bp (s : State) (r : StopReason) : (s.stopLoop r).bp = s.bp := rfl
@[simp] theorem State.stopLoop_running (s : State) (r : StopReason) : (s.stopLoop r).running = false := rfl
@[simp] theorem State.stopLoop_atDelay (s : State) (r : StopReason) : (s.stopLoop r).atDelay = false := rfl
@[simp] theorem State.stopLoop_cancelRequested (s : State) (r : StopReason) : (s.stopLoop r).cancelRequested = false := rfl
@[simp] theorem State.stopLoop_schedule (s : State) (r : StopReason) : (s.stopLoop r).schedule = s.schedule := rfl
@[simp] theorem State.stopLoop_result (s : State) (r : StopReason) : (s.stopLoop r).result = s.result := rfl
@[simp] theorem State.stopLoop_report (s : State) (r : StopReason) : (s.stopLoop r).report = some r := rfl

/-! `State.placeWord` -/

@[simp] theorem State.placeWord_mem (s : State) (w : Cell) : (s.placeWord w).mem = (s.mem.write Reg.pc (placeAt s).toCell).write (placeAt s) w := rfl
@[simp] theorem State.placeWord_hist (s : State) (w : Cell) : (s.placeWord w).hist = s.hist := rfl
@[simp] theorem State.placeWord_outLog (s : State) (w : Cell) : (s.placeWord w).outLog = s.outLog := rfl
@[simp] theorem State.placeWord_bp (s : State) (w : Cell) : (s.placeWord w).bp = s.bp := rfl
@[simp] theorem State.placeWord_running (s : State) (w : Cell) : (s.placeWord w).running = false := rfl
@[simp] theorem State.placeWord_atDelay (s : State) (w : Cell) : (s.placeWord w).atDelay = false := rfl
@[simp] theorem State.placeWord_cancelRequested (s : State) (w : Cell) : (s.placeWord w).cancelRequested = false := rfl
@[simp] theorem State.placeWord_schedule (s : State) (w : Cell) : (s.placeWord w).schedule = [] := rfl
@[simp] theorem State.placeWord_result (s : State) (w : Cell) : (s.placeWord w).result = s.result := rfl
@[simp] theorem State.placeWord_report (s : State) (w : Cell) : (s.placeWord w).report = s.report := rfl

/-! What an answer, a move and an edit leave alone (R44, R226). -/

theorem State.answer_outside (s : State) (r : Result) : s.sameOutside (s.answer r) := ⟨rfl, rfl, rfl, rfl, rfl, rfl⟩
theorem State.moved_outside (s : State) (pc src dst : Addr) : s.sameOutside (s.moved pc src dst) :=
  ⟨rfl, rfl, rfl, rfl, rfl, rfl⟩
theorem State.edited_outside (s : State) (m : Memory) : s.sameOutside (s.edited m) := ⟨rfl, rfl, rfl, rfl, rfl, rfl⟩

/-! The schedule's head taken off changes nothing else. -/

@[simp] theorem State.mem_withSchedule (s : State) (q : List Turn) :
    State.mem { s with schedule := q } = s.mem := rfl
@[simp] theorem State.hist_withSchedule (s : State) (q : List Turn) :
    State.hist { s with schedule := q } = s.hist := rfl
@[simp] theorem State.outLog_withSchedule (s : State) (q : List Turn) :
    State.outLog { s with schedule := q } = s.outLog := rfl
@[simp] theorem State.bp_withSchedule (s : State) (q : List Turn) :
    State.bp { s with schedule := q } = s.bp := rfl
@[simp] theorem State.running_withSchedule (s : State) (q : List Turn) :
    State.running { s with schedule := q } = s.running := rfl
@[simp] theorem State.atDelay_withSchedule (s : State) (q : List Turn) :
    State.atDelay { s with schedule := q } = s.atDelay := rfl
@[simp] theorem State.cancelRequested_withSchedule (s : State) (q : List Turn) :
    State.cancelRequested { s with schedule := q } = s.cancelRequested := rfl
@[simp] theorem State.result_withSchedule (s : State) (q : List Turn) :
    State.result { s with schedule := q } = s.result := rfl
@[simp] theorem State.report_withSchedule (s : State) (q : List Turn) :
    State.report { s with schedule := q } = s.report := rfl

@[simp] theorem State.cell_answer (s : State) (r : Result) (a : Addr) : (s.answer r).cell a = s.cell a := rfl
@[simp] theorem State.cell_edited (s : State) (m : Memory) (a : Addr) : (s.edited m).cell a = m.read a := rfl
@[simp] theorem State.pc_edited (s : State) (m : Memory) : (s.edited m).pc = m.read Reg.pc := rfl
@[simp] theorem State.cell_moved (s : State) (pc src dst a : Addr) :
    (s.moved pc src dst).cell a = (s.mem.move src dst).read a := rfl
@[simp] theorem State.pc_answer (s : State) (r : Result) : (s.answer r).pc = s.pc := rfl
@[simp] theorem State.word?_answer (s : State) (r : Result) : (s.answer r).word? = s.word? := rfl
@[simp] theorem State.cell_stopLoop (s : State) (r : StopReason) (a : Addr) : (s.stopLoop r).cell a = s.cell a := rfl
@[simp] theorem State.pc_stopLoop (s : State) (r : StopReason) : (s.stopLoop r).pc = s.pc := rfl
@[simp] theorem State.cell_withSchedule (s : State) (q : List Turn) (a : Addr) :
    State.cell { s with schedule := q } a = s.cell a := rfl
@[simp] theorem State.pc_withSchedule (s : State) (q : List Turn) : State.pc { s with schedule := q } = s.pc := rfl
@[simp] theorem State.word?_withSchedule (s : State) (q : List Turn) :
    State.word? { s with schedule := q } = s.word? := rfl

/-- The fetch address exists exactly when the counter is at most 99 (R132). -/
theorem State.pcAddr?_eq_some {s : State} {a : Addr} : s.pcAddr? = some a ↔ s.pc.val = a.val := by
  unfold State.pcAddr? addrOf
  split
  · next h =>
    constructor
    · intro e; cases e; rfl
    · intro e; exact congrArg some (Fin.ext e)
  · next h =>
    constructor
    · intro e; cases e
    · intro e; exact absurd (e ▸ a.isLt) h

theorem State.pcAddr?_eq_none {s : State} : s.pcAddr? = none ↔ 99 < s.pc.val := by
  unfold State.pcAddr? addrOf
  split <;> simp <;> omega

theorem State.pcAddr?_of_le {s : State} (h : s.pc.val ≤ 99) : s.pcAddr? = some ⟨s.pc.val, by omega⟩ :=
  State.pcAddr?_eq_some.mpr rfl

/-- The word the counter points at: the counter is an address and the word is that cell (R11). -/
theorem State.word?_eq_some {s : State} {w : Cell} :
    s.word? = some w ↔ ∃ a : Addr, s.pc.val = a.val ∧ s.cell a = w := by
  simp [State.word?, Option.map_eq_some_iff, State.pcAddr?_eq_some]

theorem State.word?_eq_none {s : State} : s.word? = none ↔ 99 < s.pc.val := by
  simp [State.word?, State.pcAddr?_eq_none]

end Sys2Proof.Machine
end

