-- ==== Sys2Proof/Laws/Exec.lean ====
section
/-! SUPPORT. What each shared operation of the meanings can do, said once: the program counter's next value, a MOV's snapshot
cell by cell, the outcomes of `runMove` and of `exec`, and the snapshot an undo publishes. -/

namespace Sys2Proof.Machine

/-! Numbers. -/

@[simp] theorem Cell.val_ofNat (n : Nat) : (Cell.ofNat n).val = n % 10000 := rfl

@[simp] theorem Addr.val_toCell (a : Addr) : a.toCell.val = a.val := rfl

theorem deriveSum_val (a b : Cell) : (deriveSum a b).val = (a.val + b.val) % 10000 := rfl

theorem deriveSub_val (a b : Cell) : (deriveSub a b).val = (a.val + 10000 - b.val) % 10000 := rfl

theorem advance_val (p : Cell) : (advance p).val = (p.val + 1) % 100 := by
  simp only [advance, Cell.val_ofNat]; omega

/-- The counter after an instruction whose destination is not cell 1 (R136). -/
theorem nextPc_of_ne {dst : Addr} (h : dst ≠ Reg.pc) (p : Cell) : nextPc Config.pcWriteMode dst p = advance p := by
  simp [nextPc, h]

/-- The counter after an instruction that wrote `p` to cell 1 (R137). -/
theorem nextPc_pc (p : Cell) : nextPc Config.pcWriteMode Reg.pc p = if p = 0 then 0 else advance p := by
  simp [nextPc]

theorem nextPc_le (dst : Addr) (p : Cell) : (nextPc Config.pcWriteMode dst p).val ≤ 99 := by
  have := advance_val p
  unfold nextPc
  simp only
  split
  · exact Nat.zero_le _
  · omega

/-! The snapshot of a MOV. -/

/-- What cell 1 holds after the MOV's own write, before the advance (R137). -/
def Memory.postWritePc (m : Memory) (src dst : Addr) : Cell :=
  if dst = Reg.pc then m.read src else m.read Reg.pc

/-- A cell of the snapshot before `recompute`: the next counter in cell 1, the value in the destination, else unchanged. -/
def Memory.movedCell (m : Memory) (src dst a : Addr) : Cell :=
  if a = Reg.pc then nextPc Config.pcWriteMode dst (m.postWritePc src dst)
  else if a = dst then m.read src
  else m.read a

/-- A cell after a MOV (steps 5, 7 and 8 of R130). -/
theorem Memory.read_move (m : Memory) (src dst a : Addr) :
    (m.move src dst).read a = derivedCell (m.movedCell src dst) a := by
  simp only [Memory.move, Memory.read_recompute, Memory.read_write, derivedCell, Memory.movedCell, Memory.postWritePc,
    eq_comm (a := Reg.pc) (b := dst)]

/-- The counter after a MOV. -/
@[simp] theorem Memory.read_move_pc (m : Memory) (src dst : Addr) :
    (m.move src dst).read Reg.pc = nextPc Config.pcWriteMode dst (m.postWritePc src dst) := by
  rw [Memory.read_move]; rfl

theorem Memory.wf_move {m : Memory} (h : m.wf) (src dst : Addr) : (m.move src dst).wf :=
  Memory.wf_recompute (Memory.wf_write (Memory.wf_write h _ _) _ _)

theorem Memory.derivedOk_move (m : Memory) (src dst : Addr) : (m.move src dst).derivedOk :=
  Memory.derivedOk_recompute _

theorem Memory.wf_restore {m : Memory} (h : m.wf) (e : Entry) : (m.restore e).wf :=
  Memory.wf_recompute (Memory.wf_write (Memory.wf_write (Memory.wf_write h _ _) _ _) _ _)

theorem Memory.derivedOk_restore (m : Memory) (e : Entry) : (m.restore e).derivedOk :=
  Memory.derivedOk_recompute _

/-- A cell after an undo (R166): the entry's values in cell 1, its destination and cell 11, cells 4 to 7 recomputed. -/
theorem Memory.read_restore (m : Memory) (e : Entry) (a : Addr) :
    (m.restore e).read a =
      derivedCell (fun b => if b = Reg.out then e.outBeforeStep
        else if b = e.dst then e.valueDstBeforeStep
        else if b = Reg.pc then e.pcBefore.toCell
        else m.read b) a := by
  simp only [Memory.restore, Memory.read_recompute, Memory.read_write, derivedCell]

/-- Where cells 4 to 7 follow A, B, C already, `derivedCell` reads the snapshot itself. -/
theorem derivedCell_of_derivedOk {m : Memory} (h : m.derivedOk) (a : Addr) : derivedCell m.read a = m.read a := by
  obtain ⟨h4, h5, h6, h7⟩ := h
  unfold derivedCell
  split
  · next e => rw [e, h4]
  split
  · next e => rw [e, h5]
  split
  · next e => rw [e, h6]
  split
  · next e => rw [e, h7]
  rfl

/-- A cell that is not one of 4 to 7 is read as it stands. -/
theorem derivedCell_of_ne {f : Addr → Cell} {a : Addr} (h4 : a ≠ Reg.sum) (h5 : a ≠ Reg.sub) (h6 : a ≠ Reg.cmp)
    (h7 : a ≠ Reg.trn) : derivedCell f a = f a := by
  simp [derivedCell, h4, h5, h6, h7]

/-! The outcomes of the meanings. -/

/-- Every row but HALT means the MOV its word spells. -/
theorem exec_eq_runMove {i : Instr} (h : i ≠ .halt) (s : State) : exec i s = runMove i.src i.dst s := by
  cases i <;> first | rfl | exact absurd rfl h

theorem runMove_of_lt {src dst : Nat} (hs : src < 100) (hd : dst < 100) (s : State) :
    runMove src dst s = moveCell ⟨src, hs⟩ ⟨dst, hd⟩ s := by
  simp [runMove, addrOf_of_lt hs, addrOf_of_lt hd]

theorem moveCell_of_pc {s : State} {pc : Addr} (h : s.pc.val = pc.val) (src dst : Addr) :
    moveCell src dst s = .next (s.moved pc src dst) := by
  simp [moveCell, State.pcAddr?_eq_some.mpr h]

/-- All that `runMove` can do: it moves, or with the counter above 99 it signals, or an operand above 99 stops it. -/
theorem runMove_cases (src dst : Nat) (s : State) :
    (∃ pc a b : Addr, s.pc.val = pc.val ∧ src = a.val ∧ dst = b.val ∧ runMove src dst s = .next (s.moved pc a b)) ∨
    (99 < s.pc.val ∧ src < 100 ∧ dst < 100 ∧ runMove src dst s = .next (s.answer .invalidAddress)) ∨
    ((100 ≤ src ∨ 100 ≤ dst) ∧ runMove src dst s = .fault .addressOutOfRange) := by
  by_cases hs : src < 100
  · by_cases hd : dst < 100
    · rw [runMove_of_lt hs hd]
      unfold moveCell
      cases hp : s.pcAddr? with
      | some pc => exact .inl ⟨pc, ⟨src, hs⟩, ⟨dst, hd⟩, State.pcAddr?_eq_some.mp hp, rfl, rfl, rfl⟩
      | none => exact .inr (.inl ⟨State.pcAddr?_eq_none.mp hp, hs, hd, rfl⟩)
    · refine .inr (.inr ⟨.inr (by omega), ?_⟩)
      simp [runMove, addrOf_eq_none.mpr (Nat.not_lt.mp hd)]
  · refine .inr (.inr ⟨.inl (by omega), ?_⟩)
    simp [runMove, addrOf_eq_none.mpr (Nat.not_lt.mp hs)]

/-- The next states of `exec`: HALT answers, a MOV moves, and either signals. -/
theorem exec_next_cases {i : Instr} {s t : State} (h : exec i s = .next t) :
    (i = .halt ∧ t = s.answer .haltedNoOp) ∨
    (∃ pc a b : Addr, s.pc.val = pc.val ∧ i.src = a.val ∧ i.dst = b.val ∧ t = s.moved pc a b) ∨
    (99 < s.pc.val ∧ t = s.answer .invalidAddress) := by
  by_cases hi : i = .halt
  · subst hi
    cases h
    exact .inl ⟨rfl, rfl⟩
  · rw [exec_eq_runMove hi] at h
    rcases runMove_cases i.src i.dst s with ⟨pc, a, b, hp, ha, hb, e⟩ | ⟨hp, _, _, e⟩ | ⟨_, e⟩ <;> rw [e] at h <;> cases h
    · exact .inr (.inl ⟨pc, a, b, hp, ha, hb, rfl⟩)
    · exact .inr (.inr ⟨hp, rfl⟩)

/-- A row's operands are addresses. -/
theorem Instr.inRow_lt {i : Instr} (h : i.inRow = true) : i.src < 100 ∧ i.dst < 100 := by
  cases i <;> simp [Instr.inRow, Instr.src, Instr.dst] at h ⊢ <;> omega

/-- An instruction of the table, at a counter that is an address, moves (R133). -/
theorem exec_of_inRow {i : Instr} {s : State} {pc : Addr} (hi : i.inRow = true) (hne : i ≠ .halt)
    (hp : s.pc.val = pc.val) :
    exec i s = .next (s.moved pc ⟨i.src, (Instr.inRow_lt hi).1⟩ ⟨i.dst, (Instr.inRow_lt hi).2⟩) := by
  rw [exec_eq_runMove hne, runMove_of_lt (Instr.inRow_lt hi).1 (Instr.inRow_lt hi).2, moveCell_of_pc hp]

/-! The history. -/

theorem History.length_push (h : History) (e : Entry) :
    (History.push h e).length = if h.length = 100 then 100 else h.length + 1 := by
  unfold History.push
  split <;> simp_all

theorem History.push_bound {h : History} (hb : h.length ≤ 100) (e : Entry) : (History.push h e).length ≤ 100 := by
  rw [History.length_push]; split <;> omega

theorem History.mem_push {h : History} {e x : Entry} (hx : x ∈ History.push h e) : x ∈ h ∨ x = e := by
  unfold History.push at hx
  split at hx
  · rcases List.mem_append.mp hx with hx | hx
    · exact .inl (List.mem_of_mem_drop hx)
    · exact .inr (List.mem_singleton.mp hx)
  · rcases List.mem_append.mp hx with hx | hx
    · exact .inl hx
    · exact .inr (List.mem_singleton.mp hx)

/-- Popping what was pushed gives the entry, and the buffer before, less its oldest entry if the push evicted it (R161, R163). -/
theorem History.popLast?_push (h : History) (e : Entry) :
    History.popLast? (History.push h e) = some (e, if h.length = Config.histCap then h.drop 1 else h) := by
  by_cases hc : h.length = Config.histCap
  · simp [History.push, History.popLast?, hc]
  · simp [History.push, History.popLast?, hc]

theorem History.popLast?_eq_some {h : History} {e : Entry} {r : History} :
    History.popLast? h = some (e, r) ↔ h = r ++ [e] := by
  unfold History.popLast?
  cases hl : h.getLast? with
  | none => simp_all
  | some x =>
    have := List.dropLast_append_getLast? x hl
    constructor
    · intro he; cases he; exact this.symm
    · intro he; subst he; simp at hl ⊢; exact hl.symm

theorem History.popLast?_eq_none {h : History} : History.popLast? h = none ↔ h = [] := by
  unfold History.popLast?
  cases hl : h.getLast? with
  | none => simpa using hl
  | some x => simp; rintro rfl; simp at hl

theorem entryOf_instrWord_val (m : Memory) (pc src dst : Addr) :
    (entryOf m pc src dst).instrWord.val = 100 * src.val + dst.val := by
  simp only [entryOf, Cell.val_ofNat]; omega

/-- The entry a MOV records is one R51 (d) and R167 allow, unless its word were 0. -/
theorem entryOf_wf {m : Memory} {pc src dst : Addr} (hp : (m.read Reg.pc).val = pc.val)
    (h : ¬ (src.val = 0 ∧ dst.val = 0)) : (entryOf m pc src dst).wf := by
  have hv := entryOf_instrWord_val m pc src dst
  refine ⟨⟨fun e => ?_, ?_, ?_⟩, fun e => ?_, fun e => ?_⟩
  · rw [e] at hv
    have : (0 : Cell).val = 0 := rfl
    omega
  · rw [hv]; simp only [entryOf]; omega
  · rw [hv]; simp only [entryOf]; omega
  · change dst = Reg.pc at e
    subst e
    exact Fin.ext hp
  · change dst = Reg.out at e
    subst e
    rfl

end Sys2Proof.Machine
end

