-- ==== Sys2Proof/Laws/Turn.lean ====
section
/-! SUPPORT. What each command can do, said once: if it answers a next state, the state is one of these. -/

namespace Sys2Proof.Machine

/-- The source of a fetched word, as an address (R95: always in range). -/
def wordSrc (w : Cell) : Addr := ⟨w.val / 100, by omega⟩

/-- The destination of a fetched word, as an address (R95: always in range). -/
def wordDst (w : Cell) : Addr := ⟨w.val % 100, by omega⟩

/-- A word other than 0, at a counter that is an address, moves (R95, R133): no STEP reaches the engine-level fault. -/
theorem exec_decodeCell {s : State} {w : Cell} {pc : Addr} (hw : w ≠ 0) (hp : s.pc.val = pc.val) :
    exec (decodeCell w) s = .next (s.moved pc (wordSrc w) (wordDst w)) := by
  have hne : decodeCell w ≠ .halt := fun e => hw (decodeCell_eq_halt.mp e)
  have hs : w.val / 100 < 100 := by omega
  have hd : w.val % 100 < 100 := by omega
  rw [exec_eq_runMove hne, (decodeCell_operands w).1, (decodeCell_operands w).2, runMove_of_lt hs hd, moveCell_of_pc hp]
  rfl

/-- All that STEP can do (R150): signal InvalidAddress, signal HaltedNoOp, or execute the word at the counter. -/
theorem commandStep_cases (s : State) :
    (99 < s.pc.val ∧ commandStep s = .next (s.answer .invalidAddress)) ∨
    (s.word? = some 0 ∧ commandStep s = .next (s.answer .haltedNoOp)) ∨
    (∃ (w : Cell) (pc : Addr), s.word? = some w ∧ w ≠ 0 ∧ s.pc.val = pc.val ∧ s.cell pc = w ∧
      commandStep s = .next (s.moved pc (wordSrc w) (wordDst w))) := by
  unfold commandStep
  cases hw : s.word? with
  | none => exact .inl ⟨State.word?_eq_none.mp hw, rfl⟩
  | some w =>
    obtain ⟨pc, hp, hc⟩ := State.word?_eq_some.mp hw
    by_cases h0 : w = 0
    · subst h0; exact .inr (.inl ⟨rfl, rfl⟩)
    · exact .inr (.inr ⟨w, pc, rfl, h0, hp, hc, exec_decodeCell h0 hp⟩)

/-- All that STEP_BACK can do (R166). -/
theorem commandStepBack_cases (s : State) :
    (s.hist = [] ∧ commandStepBack s = .next (s.answer .emptyHistory)) ∨
    (∃ e rest, s.hist = rest ++ [e] ∧
      commandStepBack s = .next { s with mem := s.mem.restore e, hist := rest, result := some .success }) := by
  unfold commandStepBack
  cases h : History.popLast? s.hist with
  | none => exact .inl ⟨History.popLast?_eq_none.mp h, rfl⟩
  | some p => exact .inr ⟨p.1, p.2, History.popLast?_eq_some.mp h, rfl⟩

/-- All that WRITE can do (R180, R181, R185). -/
theorem commandWrite_cases (addr value : Nat) (s : State) :
    (∃ (a : Addr) (v : Cell), addr = a.val ∧ value = v.val ∧
      commandWrite addr value s = .next (s.edited (s.mem.write a v).recompute)) ∨
    (99 < addr ∧ value < 10000 ∧ commandWrite addr value s = .next (s.answer .invalidAddress)) ∨
    (10000 ≤ value ∧ commandWrite addr value s = .refused .valueNotACell) := by
  unfold commandWrite
  split
  · next h =>
    cases ha : addrOf addr with
    | some a => exact .inl ⟨a, ⟨value, h⟩, addrOf_eq_some.mp ha, rfl, rfl⟩
    | none => exact .inr (.inl ⟨by have := addrOf_eq_none.mp ha; omega, h, rfl⟩)
  · next h => exact .inr (.inr ⟨Nat.not_lt.mp h, rfl⟩)

/-- A list of cells, as the raw numbers the host supplies, is taken for those cells (R185). -/
theorem cellsOf_map_val (cs : List Cell) : cellsOf (cs.map Fin.val) = some cs := by
  induction cs with
  | nil => rfl
  | cons c cs ih => simp [cellsOf, ih]

theorem cellsOf_length {ns : List Nat} {cs : List Cell} (h : cellsOf ns = some cs) : cs.length = ns.length := by
  induction ns generalizing cs with
  | nil => cases h; rfl
  | cons n ns ih =>
    simp only [cellsOf] at h
    split at h
    · split at h
      · next hc => cases h; simp [ih hc]
      · cases h
    · cases h

theorem cellsOfLength_length {len : Nat} {ns : List Nat} {cs : List Cell} (h : cellsOfLength len ns = some cs) :
    cs.length = len := by
  unfold cellsOfLength at h
  split at h
  · next hl => rw [cellsOf_length h, hl]
  · cases h

/-- All that LOAD can do (R184, R185). -/
theorem commandLoad_cases (image : List Nat) (s : State) :
    (∃ cells, cellsOfLength 100 image = some cells ∧ commandLoad image s = .next (s.edited (Memory.ofImage cells))) ∨
    (cellsOfLength 100 image = none ∧ commandLoad image s = .refused .imageNotAnImage) := by
  unfold commandLoad
  cases h : cellsOfLength Config.memSize image with
  | some cells => exact .inl ⟨cells, rfl, rfl⟩
  | none => exact .inr ⟨rfl, rfl⟩

/-- What the host gives for an open parameter has the parameter's length, as the default has (R8, R185). -/
theorem cellsOrDefault_length {default : List Cell} {len : Nat} {ns : Option (List Nat)} {cs : List Cell}
    (hd : default.length = len) (h : cellsOrDefault default len ns = some cs) : cs.length = len := by
  cases ns with
  | none => cases h; exact hd
  | some ns => exact cellsOfLength_length h

theorem cellsOrDefault_map_val (default : List Cell) {len : Nat} {cs : List Cell} (h : cs.length = len) :
    cellsOrDefault default len (some (cs.map Fin.val)) = some cs := by
  rw [cellsOrDefault, cellsOfLength, if_pos (by simpa using h), cellsOf_map_val]

theorem sampleProgram_length : Config.sampleProgram.length = Config.sampleCount := rfl

theorem regSeed_length : Config.regSeed.length = Config.regCount := by decide +kernel

/-- All that RESET_REGS can do (R252, R185). -/
theorem commandResetRegs_cases (seed : Option (List Nat)) (s : State) :
    (∃ cells, cells.length = 50 ∧ cellsOrDefault Config.regSeed 50 seed = some cells ∧
      commandResetRegs seed s = .next (s.edited (s.mem.resetRegs cells))) ∨
    (cellsOrDefault Config.regSeed 50 seed = none ∧ commandResetRegs seed s = .refused .seedNotASeed) := by
  unfold commandResetRegs
  cases h : cellsOrDefault Config.regSeed Config.regCount seed with
  | some cells => exact .inl ⟨cells, cellsOrDefault_length regSeed_length h, rfl, rfl⟩
  | none => exact .inr ⟨rfl, rfl⟩

/-- All that RESET_PROG can do (R253, R8, R185). -/
theorem commandResetProg_cases (mode : ProgMode) (program : Option (List Nat)) (s : State) :
    (∃ cells, cells.length = 6 ∧ cellsOrDefault Config.sampleProgram 6 program = some cells ∧
      commandResetProg mode program s = .next (s.edited (s.mem.resetProg cells mode))) ∨
    (cellsOrDefault Config.sampleProgram 6 program = none ∧
      commandResetProg mode program s = .refused .programNotSixCells) := by
  unfold commandResetProg
  cases h : cellsOrDefault Config.sampleProgram Config.sampleCount program with
  | some cells => exact .inl ⟨cells, cellsOrDefault_length sampleProgram_length h, rfl, rfl⟩
  | none => exact .inr ⟨rfl, rfl⟩

/-- All that TOGGLE_BP can do (R200, R201). -/
theorem commandToggleBp_cases (addr : Nat) (s : State) :
    (∃ a : Addr, addr = a.val ∧ 50 ≤ addr ∧ commandToggleBp addr s =
      .next { s with bp := toggleMember s.bp a, result := some (.member (decide (a ∉ s.bp))) }) ∨
    ((addr < 50 ∨ 99 < addr) ∧ commandToggleBp addr s = .next (s.answer .invalidAddress)) := by
  unfold commandToggleBp
  cases ha : addrOf addr with
  | none => exact .inr ⟨.inr (by have := addrOf_eq_none.mp ha; omega), rfl⟩
  | some a =>
    have h := addrOf_eq_some.mp ha
    by_cases hb : Config.romBase ≤ a.val
    · exact .inl ⟨a, h, by rw [h]; exact hb, by simp [hb]⟩
    · exact .inr ⟨.inl (by rw [h]; exact Nat.not_le.mp hb), by simp [hb]⟩

/-- All that one iteration of the run loop can do (R203, R208). -/
theorem loopIteration_cases (s : State) :
    (99 < s.pc.val ∧ loopIteration s = .next (s.stopLoop .fault)) ∨
    (s.word? = some 0 ∧ loopIteration s = .next (s.stopLoop .halted)) ∨
    (∃ (w : Cell) (pc : Addr), s.word? = some w ∧ w ≠ 0 ∧ s.pc.val = pc.val ∧ s.cell pc = w ∧
      loopIteration s = .next (afterLoopStep (s.moved pc (wordSrc w) (wordDst w)))) := by
  unfold loopIteration
  rcases commandStep_cases s with ⟨h, _⟩ | ⟨h, _⟩ | ⟨w, pc, hw, h0, hp, hc, he⟩
  · exact .inl ⟨h, by simp [State.word?_eq_none.mpr h]⟩
  · exact .inr (.inl ⟨h, by simp [h]⟩)
  · exact .inr (.inr ⟨w, pc, hw, h0, hp, hc, by simp [hw, h0, he]⟩)

/-- All that points (c) and (d) of the run loop can do (R203): stop for one reason, or enter the delay. -/
theorem afterLoopStep_cases (s : State) :
    (s.atBreakpoint = true ∧ afterLoopStep s = s.stopLoop .breakpoint) ∨
    (s.atBreakpoint = false ∧ s.readInput = true ∧ afterLoopStep s = s.stopLoop .inputWait) ∨
    (s.atBreakpoint = false ∧ s.readInput = false ∧ afterLoopStep s = { s with atDelay := true }) := by
  unfold afterLoopStep
  cases s.atBreakpoint <;> cases s.readInput <;> simp

/-- A manual command that answers was issued while the loop was stopped (R207). -/
theorem whenStopped_next {s t : State} {command : State → Host.Outcome State Fault Refusal}
    (h : whenStopped s command = .next t) : s.running = false ∧ command s = .next t := by
  unfold whenStopped at h
  cases hr : s.running <;> simp [hr] at h ⊢
  exact h

/-! The breakpoint set. -/

theorem mem_toggleMember {bp : List Addr} (h : bp.Pairwise (· < ·)) (a b : Addr) :
    b ∈ toggleMember bp a ↔ (if b = a then a ∉ bp else b ∈ bp) := by
  have hn : bp.Nodup := h.imp fun hlt => ne_of_lt hlt
  unfold toggleMember
  by_cases ha : a ∈ bp
  · simp only [ha, if_true, hn.mem_erase_iff]
    by_cases hb : b = a <;> simp [hb]
  · simp only [ha, if_false, List.mem_orderedInsert]
    by_cases hb : b = a <;> simp [hb]

theorem toggleMember_sorted {bp : List Addr} (h : bp.Pairwise (· < ·)) (a : Addr) :
    (toggleMember bp a).Pairwise (· < ·) := by
  unfold toggleMember
  by_cases ha : a ∈ bp
  · simp only [ha, if_true]
    exact h.sublist List.erase_sublist
  · simp only [ha, if_false]
    induction bp with
    | nil => simp
    | cons x bp ih =>
      have hp := List.pairwise_cons.mp h
      simp only [List.mem_cons, not_or] at ha
      by_cases hle : a ≤ x
      · rw [List.orderedInsert, if_pos hle]
        refine List.pairwise_cons.mpr ⟨fun y hy => ?_, h⟩
        rcases List.mem_cons.mp hy with rfl | hy
        · exact lt_of_le_of_ne hle ha.1
        · exact lt_of_le_of_lt hle (hp.1 y hy)
      · rw [List.orderedInsert, if_neg hle]
        refine List.pairwise_cons.mpr ⟨fun y hy => ?_, ih hp.2 ha.2⟩
        rcases (List.mem_orderedInsert (· ≤ ·)).mp hy with rfl | hy
        · exact not_le.mp hle
        · exact hp.1 y hy

end Sys2Proof.Machine
end

