-- ==== Sys2Proof/Laws/Effect.lean ====
section
/-! SUPPORT. The whole effect of the move every MOV row means (R130, R133), in the clauses of `MovEffect`. -/

namespace Sys2Proof.Machine

/-- Moving a cell has the effect R130 states, in every state whose counter is the address `pc`. -/
theorem State.moved_effect {s : State} {pc : Addr} (hp : s.pc.val = pc.val) (src dst : Addr) :
    MovEffect s (s.moved pc src dst) pc src dst where
  counter := by
    have hpc : (s.moved pc src dst).pc = nextPc Config.pcWriteMode dst (s.mem.postWritePc src dst) :=
      Memory.read_move_pc s.mem src dst
    rw [hpc]
    by_cases hd : dst = Reg.pc
    · subst hd
      rw [nextPc_pc]
      simp only [Memory.postWritePc, if_true]
      by_cases hz : s.mem.read src = 0
      · have hz' : (s.cell src).val = 0 := congrArg Fin.val hz
        rw [if_pos hz, if_pos hz']
        rfl
      · have hz' : (s.cell src).val ≠ 0 := fun e => hz (Fin.ext e)
        rw [if_neg hz, if_neg hz', advance_val]
        rfl
    · rw [nextPc_of_ne hd, advance_val, if_neg hd]
      simp only [Memory.postWritePc, if_neg hd]
      rw [← hp]
      rfl
  cells := by
    intro a ha ⟨h4, h5, h6, h7⟩
    change (s.mem.move src dst).read a = _
    rw [Memory.read_move, derivedCell_of_ne h4 h5 h6 h7]
    simp only [Memory.movedCell, if_neg ha]
    rfl
  derived := Memory.derivedOk_move s.mem src dst
  history := by
    change History.push s.hist (entryOf s.mem pc src dst) = _
    unfold History.push
    split
    · rw [List.drop_one]; rfl
    · rfl
  output := rfl
  answer := rfl
  outside := ⟨rfl, rfl, rfl, rfl, rfl, rfl⟩

end Sys2Proof.Machine
end

