-- ==== Sys2Proof/Tests/Slice0.lean ====
section
/-! SUPPORT. Tests, as named theorems. Expected values are the spec's own: 95_test_vectors.md (its vector is named in each
docstring), or worked by hand from the rule named. The last part holds one witness for each statement of Obligations.lean
that has hypotheses: `test_witness_<Name>` shows a state and operands that meet all of them. -/

namespace Sys2Proof.Tests

open Sys2Proof.Machine

-- One declaration at a time: each kernel evaluation waits for the one before it, and a waiting one holds a thread.
set_option Elab.async false

/-! ## Helpers -/

/-- The default start of 95_test_vectors.md (counter 50, every other cell 0) with some cells changed, cells 4 to 7
recomputed. -/
def startMem (cells : List (Addr × Cell)) : Memory :=
  Memory.recompute (cells.foldl (fun (m : Memory) x => m.write x.1 x.2) [(1, 50)])

/-- The default start with this memory. -/
def start (cells : List (Addr × Cell)) : State := { State.reset with mem := startMem cells }

/-- The next state, if there is one. -/
def nextOf (o : Host.Outcome State Fault Refusal) : Option State :=
  match o with
  | .next t => some t
  | .fault _ => none
  | .refused _ => none

/-- The fault, if there is one. -/
def faultOf (o : Host.Outcome State Fault Refusal) : Option Fault :=
  match o with
  | .next _ => none
  | .fault r => some r
  | .refused _ => none

/-- The refusal, if there is one. -/
def refusalOf (o : Host.Outcome State Fault Refusal) : Option Refusal :=
  match o with
  | .next _ => none
  | .fault _ => none
  | .refused r => some r

/-- What one STEP leaves: the result, some cells (the counter first), the entries pushed, the events. -/
def seen (as : List Addr) (o : Host.Outcome State Fault Refusal) :
    Option (Option Result × List Cell × List Entry × List Cell) :=
  (nextOf o).map fun t => (t.result, (Reg.pc :: as).map t.cell, t.hist, t.outLog)

/-! ## Well-formedness: an ill-formed term for each check -/

theorem test_wf_mov_src : (Instr.mov 100 13).wellFormed = false := by decide
theorem test_wf_mov_dst : (Instr.mov 13 100).wellFormed = false := by decide
theorem test_wf_mov_zero : (Instr.mov 0 0).inRow = false := by decide
theorem test_wf_mov_not_canonical : (Instr.mov 13 2).wellFormed = false := by decide
theorem test_wf_mov_same_not_canonical : (Instr.mov 13 13).wellFormed = false := by decide
theorem test_wf_to_halt : (Instr.movToHalt 100).wellFormed = false ∧ (Instr.movToHalt 0).wellFormed = false := by decide
theorem test_wf_to_pc : (Instr.movToPc 100).wellFormed = false ∧ (Instr.movToPc 0).wellFormed = false ∧
    (Instr.movToPc 1).wellFormed = false := by decide
theorem test_wf_to_a : (Instr.movToA 100).wellFormed = false ∧ (Instr.movToA 2).wellFormed = false := by decide
theorem test_wf_to_b : (Instr.movToB 100).wellFormed = false ∧ (Instr.movToB 3).wellFormed = false := by decide
theorem test_wf_to_sum : (Instr.movToSum 100).wellFormed = false ∧ (Instr.movToSum 4).wellFormed = false := by decide
theorem test_wf_to_sub : (Instr.movToSub 100).wellFormed = false ∧ (Instr.movToSub 5).wellFormed = false := by decide
theorem test_wf_to_cmp : (Instr.movToCmp 100).wellFormed = false ∧ (Instr.movToCmp 6).wellFormed = false := by decide
theorem test_wf_to_trn : (Instr.movToTrn 100).wellFormed = false ∧ (Instr.movToTrn 7).wellFormed = false := by decide
theorem test_wf_to_c : (Instr.movToC 100).wellFormed = false ∧ (Instr.movToC 8).wellFormed = false := by decide
theorem test_wf_to_out : (Instr.movToOut 100).wellFormed = false ∧ (Instr.movToOut 11).wellFormed = false := by decide
theorem test_wf_to_rom : (Instr.movToRom 100 50).wellFormed = false ∧ (Instr.movToRom 2 49).wellFormed = false ∧
    (Instr.movToRom 2 100).wellFormed = false ∧ (Instr.movToRom 50 50).wellFormed = false := by decide
theorem test_wf_from_halt : (Instr.movFromHalt 100).wellFormed = false ∧ (Instr.movFromHalt 0).wellFormed = false ∧
    (Instr.movFromHalt 2).wellFormed = false := by decide
theorem test_wf_from_pc : (Instr.movFromPc 100).wellFormed = false ∧ (Instr.movFromPc 1).wellFormed = false := by decide
theorem test_wf_from_sum : (Instr.movFromSum 100).wellFormed = false ∧ (Instr.movFromSum 11).wellFormed = false := by decide
theorem test_wf_from_sub : (Instr.movFromSub 100).wellFormed = false ∧ (Instr.movFromSub 50).wellFormed = false := by decide
theorem test_wf_from_cmp : (Instr.movFromCmp 100).wellFormed = false ∧ (Instr.movFromCmp 8).wellFormed = false := by decide
theorem test_wf_from_trn : (Instr.movFromTrn 100).wellFormed = false ∧ (Instr.movFromTrn 1).wellFormed = false := by decide
theorem test_wf_from_in : (Instr.movFromIn 100).wellFormed = false ∧ (Instr.movFromIn 12).wellFormed = false := by decide
theorem test_wf_same : (Instr.movSame 100).wellFormed = false ∧ (Instr.movSame 0).wellFormed = false ∧
    (Instr.movSame 9).wellFormed = false := by decide

/-! ## Decoding: a word of each constructor, its four digits written out from R90 (V-X of 95_test_vectors.md where it has
the class), and its encoding -/

/-- V-X, word 0000 (R92). -/
theorem test_decode_halt : decode 0 = .ok .halt ∧ encode .halt = 0 := by decide
/-- V-X, word 0209, MOV A, TMP: digits 02 and 09. -/
theorem test_decode_mov : decode 209 = .ok (.mov 2 9) ∧ encode (.mov 2 9) = 209 := by decide
/-- V-X, word 9900, MOV 99, HALT. -/
theorem test_decode_to_halt : decode 9900 = .ok (.movToHalt 99) ∧ encode (.movToHalt 99) = 9900 := by decide
/-- V-J, word 0901, MOV TMP, PC. -/
theorem test_decode_to_pc : decode 901 = .ok (.movToPc 9) ∧ encode (.movToPc 9) = 901 := by decide
/-- V-X, word 0302, MOV B, A. -/
theorem test_decode_to_a : decode 302 = .ok (.movToA 3) ∧ encode (.movToA 3) = 302 := by decide
/-- V-X, word 0903, MOV TMP, B. -/
theorem test_decode_to_b : decode 903 = .ok (.movToB 9) ∧ encode (.movToB 9) = 903 := by decide
/-- V-M4, word 0204, MOV A, SUM. -/
theorem test_decode_to_sum : decode 204 = .ok (.movToSum 2) ∧ encode (.movToSum 2) = 204 := by decide
/-- Row ss05 with digits 13. -/
theorem test_decode_to_sub : decode 1305 = .ok (.movToSub 13) ∧ encode (.movToSub 13) = 1305 := by decide
/-- Row ss06 with digits 50. -/
theorem test_decode_to_cmp : decode 5006 = .ok (.movToCmp 50) ∧ encode (.movToCmp 50) = 5006 := by decide
/-- Row ss07 with digits 99. -/
theorem test_decode_to_trn : decode 9907 = .ok (.movToTrn 99) ∧ encode (.movToTrn 99) = 9907 := by decide
/-- V-X, word 0608, MOV CMP, C. -/
theorem test_decode_to_c : decode 608 = .ok (.movToC 6) ∧ encode (.movToC 6) = 608 := by decide
/-- V-X, word 0211, MOV A, OUT. -/
theorem test_decode_to_out : decode 211 = .ok (.movToOut 2) ∧ encode (.movToOut 2) = 211 := by decide
/-- V-M6, word 0250, MOV A, 50, and the word 0299. -/
theorem test_decode_to_rom : decode 250 = .ok (.movToRom 2 50) ∧ decode 299 = .ok (.movToRom 2 99) ∧
    encode (.movToRom 2 99) = 299 := by decide
/-- V-X, word 0009, MOV 0, TMP. -/
theorem test_decode_from_halt : decode 9 = .ok (.movFromHalt 9) ∧ encode (.movFromHalt 9) = 9 := by decide
/-- V-M7, word 0109, MOV PC, TMP. -/
theorem test_decode_from_pc : decode 109 = .ok (.movFromPc 9) ∧ encode (.movFromPc 9) = 109 := by decide
/-- Row 04dd with digits 10. -/
theorem test_decode_from_sum : decode 410 = .ok (.movFromSum 10) ∧ encode (.movFromSum 10) = 410 := by decide
/-- P4, word 0513, MOV SUB, 13. -/
theorem test_decode_from_sub : decode 513 = .ok (.movFromSub 13) ∧ encode (.movFromSub 13) = 513 := by decide
/-- Row 06dd with digits 49. -/
theorem test_decode_from_cmp : decode 649 = .ok (.movFromCmp 49) ∧ encode (.movFromCmp 49) = 649 := by decide
/-- Row 07dd with digits 12. -/
theorem test_decode_from_trn : decode 712 = .ok (.movFromTrn 12) ∧ encode (.movFromTrn 12) = 712 := by decide
/-- V-B11, word 1209, MOV IN, TMP, and the word 1210 of P5. -/
theorem test_decode_from_in : decode 1209 = .ok (.movFromIn 9) ∧ decode 1210 = .ok (.movFromIn 10) ∧
    encode (.movFromIn 10) = 1210 := by decide
/-- V-X, words 0101, 1111, 1212, 5050 and 9999, the largest. -/
theorem test_decode_same : decode 101 = .ok (.movSame 1) ∧ decode 1111 = .ok (.movSame 11) ∧
    decode 1212 = .ok (.movSame 12) ∧ decode 5050 = .ok (.movSame 50) ∧ decode 9999 = .ok (.movSame 99) ∧
    encode (.movSame 99) = 9999 := by decide
/-- V-X, word 0001. -/
theorem test_decode_stop : decode 1 = .ok .stop ∧ encode .stop = 1 := by decide
/-- V-X, word 0909. -/
theorem test_decode_nop : decode 909 = .ok .nop ∧ encode .nop = 909 := by decide
/-- V-X, 12345: no cell holds it, and the bare decoder gives (123, 45). -/
theorem test_decode_not_a_cell : decode 12345 = .error .notACell ∧ splitWord 12345 = (123, 45) := by decide
/-- The host's entry: the number is the word, whatever the width. -/
theorem test_decode_table_word : decodeTableWord 16 608 = some (.movToC 6) ∧ decodeTableWord 16 10000 = none := by decide

/-! ## The derived unit (V-D) -/

theorem test_derive_wraps : derive 1234 9000 0 = ⟨234, 2234, 0, 9000⟩ := by decide
theorem test_derive_borrow : derive 10 42 1 = ⟨52, 9968, 0, 10⟩ := by decide
theorem test_derive_exact_modulus : derive 5000 5000 1 = ⟨0, 0, 0, 5000⟩ := by decide
theorem test_derive_any_condition : derive 5 7 9999 = ⟨12, 9998, 0, 5⟩ := by decide
theorem test_derive_greater : derive 9999 1 5 = ⟨0, 9998, 1, 9999⟩ := by decide

/-! ## One STEP for each row -/

/-- V-H1: at a word 0 nothing changes. -/
theorem test_halt : seen [] (commandStep (start [])) = some (some .haltedNoOp, [50], [], []) := by decide +kernel
/-- V-H5: a counter of 100 signals. -/
theorem test_counter_out_of_range :
    seen [] (commandStep (start [(1, 100)])) = some (some .invalidAddress, [100], [], []) := by decide +kernel
/-- V-M1, on a state where A is 42. -/
theorem test_mov : seen [9] (commandStep (start [(2, 42), (50, 209)])) =
    some (some (.stepped 2 9 42), [51, 42], [⟨50, 209, 2, 9, 42, 0, 0⟩], []) := by decide +kernel
/-- V-M18: from address 99 the counter wraps to 0. -/
theorem test_mov_wraps : seen [9] (commandStep (start [(1, 99), (2, 5), (99, 209)])) =
    some (some (.stepped 2 9 5), [0, 5], [⟨99, 209, 2, 9, 5, 0, 0⟩], []) := by decide +kernel
/-- V-M5. -/
theorem test_to_halt : seen [0] (commandStep (start [(2, 7), (50, 200)])) =
    some (some (.stepped 2 0 7), [51, 7], [⟨50, 200, 2, 0, 7, 0, 0⟩], []) := by decide +kernel
/-- V-J, v = 49 and v = 9999. -/
theorem test_to_pc : seen [] (commandStep (start [(9, 49), (50, 901)])) =
      some (some (.stepped 9 1 49), [50], [⟨50, 901, 9, 1, 49, 50, 0⟩], []) ∧
    seen [] (commandStep (start [(9, 9999), (50, 901)])) =
      some (some (.stepped 9 1 9999), [0], [⟨50, 901, 9, 1, 9999, 50, 0⟩], []) := by decide +kernel
/-- V-J, v = 100 goes to address 1 and v = 0 stays 0. -/
theorem test_to_pc_zero : seen [] (commandStep (start [(9, 100), (50, 901)])) =
      some (some (.stepped 9 1 100), [1], [⟨50, 901, 9, 1, 100, 50, 0⟩], []) ∧
    seen [] (commandStep (start [(50, 901)])) =
      some (some (.stepped 9 1 0), [0], [⟨50, 901, 9, 1, 0, 50, 0⟩], []) := by decide +kernel
/-- V-M3: SUM, SUB, CMP and TRN follow the new A. -/
theorem test_to_a : seen [2, 4, 5, 6, 7] (commandStep (start [(2, 42), (3, 10), (8, 1), (50, 302)])) =
    some (some (.stepped 3 2 10), [51, 10, 20, 0, 0, 10], [⟨50, 302, 3, 2, 10, 42, 0⟩], []) := by decide +kernel
/-- P1, step 3. -/
theorem test_to_b : seen [3, 4, 5, 6, 7] (commandStep (start [(1, 52), (2, 10), (3, 10), (8, 1), (9, 42), (52, 903)])) =
    some (some (.stepped 9 3 42), [53, 42, 52, 9968, 0, 10], [⟨52, 903, 9, 3, 42, 10, 0⟩], []) := by decide +kernel
/-- V-M4. -/
theorem test_to_sum : seen [4, 5, 6, 7] (commandStep (start [(2, 7), (3, 3), (50, 204)])) =
    some (some (.stepped 2 4 7), [51, 10, 4, 1, 3], [⟨50, 204, 2, 4, 7, 10, 0⟩], []) := by decide +kernel
/-- R140, as V-M4 with destination 5. -/
theorem test_to_sub : seen [4, 5, 6, 7] (commandStep (start [(2, 7), (3, 3), (50, 205)])) =
    some (some (.stepped 2 5 7), [51, 10, 4, 1, 3], [⟨50, 205, 2, 5, 7, 4, 0⟩], []) := by decide +kernel
/-- R140, as V-M4 with destination 6. -/
theorem test_to_cmp : seen [4, 5, 6, 7] (commandStep (start [(2, 7), (3, 3), (50, 206)])) =
    some (some (.stepped 2 6 7), [51, 10, 4, 1, 3], [⟨50, 206, 2, 6, 7, 1, 0⟩], []) := by decide +kernel
/-- R140, as V-M4 with destination 7. -/
theorem test_to_trn : seen [4, 5, 6, 7] (commandStep (start [(2, 7), (3, 3), (50, 207)])) =
    some (some (.stepped 2 7 7), [51, 10, 4, 1, 3], [⟨50, 207, 2, 7, 7, 3, 0⟩], []) := by decide +kernel
/-- P3, step 3 with x = 9 and y = 7: TRN switches to A. -/
theorem test_to_c : seen [8, 7] (commandStep (start [(1, 52), (2, 9), (3, 7), (52, 608)])) =
    some (some (.stepped 6 8 1), [53, 1, 9], [⟨52, 608, 6, 8, 1, 0, 0⟩], []) := by decide +kernel
/-- V-M2. -/
theorem test_to_out : seen [11] (commandStep (start [(2, 10), (50, 211)])) =
    some (some (.stepped 2 11 10), [51, 10], [⟨50, 211, 2, 11, 10, 0, 0⟩], [10]) := by decide +kernel
/-- V-M6: an instruction overwrites its own word. -/
theorem test_to_rom : seen [50] (commandStep (start [(2, 7), (50, 250)])) =
    some (some (.stepped 2 50 7), [51, 7], [⟨50, 250, 2, 50, 7, 250, 0⟩], []) := by decide +kernel
/-- V-M13. -/
theorem test_from_halt : seen [9] (commandStep (start [(9, 42), (50, 9)])) =
    some (some (.stepped 0 9 0), [51, 0], [⟨50, 9, 0, 9, 0, 42, 0⟩], []) := by decide +kernel
/-- V-M7. -/
theorem test_from_pc : seen [9] (commandStep (start [(50, 109)])) =
    some (some (.stepped 1 9 50), [51, 50], [⟨50, 109, 1, 9, 50, 0, 0⟩], []) := by decide +kernel
/-- V-M9's values with destination 10. -/
theorem test_from_sum : seen [10] (commandStep (start [(2, 1234), (3, 9000), (50, 410)])) =
    some (some (.stepped 4 10 234), [51, 234], [⟨50, 410, 4, 10, 234, 0, 0⟩], []) := by decide +kernel
/-- V-M11's values with destination 13. -/
theorem test_from_sub : seen [13] (commandStep (start [(3, 1), (50, 513)])) =
    some (some (.stepped 5 13 9999), [51, 9999], [⟨50, 513, 5, 13, 9999, 0, 0⟩], []) := by decide +kernel
/-- V-D, row 9999, 1, 5: CMP is 1. -/
theorem test_from_cmp : seen [49] (commandStep (start [(2, 9999), (3, 1), (8, 5), (50, 649)])) =
    some (some (.stepped 6 49 1), [51, 1], [⟨50, 649, 6, 49, 1, 0, 0⟩], []) := by decide +kernel
/-- V-M12's values with destination 12. -/
theorem test_from_trn : seen [12] (commandStep (start [(2, 5), (3, 5), (8, 9999), (50, 712)])) =
    some (some (.stepped 7 12 5), [51, 5], [⟨50, 712, 7, 12, 5, 0, 0⟩], []) := by decide +kernel
/-- V-B11's first step: cell 12 keeps its content. -/
theorem test_from_in : seen [9, 12] (commandStep (start [(12, 4), (50, 1209)])) =
    some (some (.stepped 12 9 4), [51, 4, 4], [⟨50, 1209, 12, 9, 4, 0, 0⟩], []) := by decide +kernel
/-- V-M15: OUT is emitted again. -/
theorem test_same_out : seen [11] (commandStep (start [(11, 5), (50, 1111)])) =
    some (some (.stepped 11 11 5), [51, 5], [⟨50, 1111, 11, 11, 5, 5, 5⟩], [5]) := by decide +kernel
/-- V-M8. -/
theorem test_same_pc : seen [] (commandStep (start [(50, 101)])) =
    some (some (.stepped 1 1 50), [51], [⟨50, 101, 1, 1, 50, 50, 0⟩], []) := by decide +kernel
/-- P1, step 6. -/
theorem test_stop : seen [0] (commandStep (start [(1, 55), (11, 42), (55, 1)])) =
    some (some (.stepped 0 1 0), [0, 0], [⟨55, 1, 0, 1, 0, 55, 42⟩], []) := by decide +kernel
/-- V-M16. -/
theorem test_nop : seen [9] (commandStep (start [(50, 909)])) =
    some (some (.stepped 9 9 0), [51, 0], [⟨50, 909, 9, 9, 0, 0, 0⟩], []) := by decide +kernel
/-- R111: an operand above 99 is an engine-level error. -/
theorem test_operand_above_ninety_nine : faultOf (exec (.mov 100 9) (start [])) = some .addressOutOfRange := by
  decide +kernel

/-! ## Undo, edits, resets, the run loop -/

/-- V-U4: after V-M4, PC and SUM are back and the history is empty. -/
theorem test_undo : seen [4, 2] (commandStepBack { start [(1, 51), (2, 7), (3, 3), (50, 204)] with
      hist := [⟨50, 204, 2, 4, 7, 10, 0⟩] }) = some (some .success, [50, 10, 7], [], []) := by decide +kernel
/-- V-U2: OUT is restored, the event stays. -/
theorem test_undo_output : seen [11] (commandStepBack { start [(1, 51), (2, 10), (11, 10), (50, 211)] with
      hist := [⟨50, 211, 2, 11, 10, 0, 0⟩], outLog := [10] }) = some (some .success, [50, 0], [], [10]) := by
  decide +kernel
/-- V-U9. -/
theorem test_undo_empty : seen [] (commandStepBack (start [])) = some (some .emptyHistory, [50], [], []) := by
  decide +kernel
/-- V-W2 and V-W7: cells 4 to 7 follow, the counter takes the value as it is. -/
theorem test_write : seen [2, 4, 5, 6, 7] (takeTurn (.write 2 42) (start [])) =
      some (some .ok, [50, 42, 42, 42, 1, 0], [], []) ∧
    seen [] (takeTurn (.write 1 55) (start [])) = some (some .ok, [55], [], []) := by decide +kernel
/-- V-W3 and V-W8: the history is emptied though no cell changes. -/
theorem test_write_clears : seen [4] (takeTurn (.write 4 99) { start [(2, 7), (3, 3)] with
      hist := [⟨50, 204, 2, 4, 7, 10, 0⟩] }) = some (some .ok, [50, 10], [], []) := by decide +kernel
/-- V-W6: a rejected edit leaves the history. -/
theorem test_write_rejected : seen [] (takeTurn (.write 100 1) { start [] with
      hist := [⟨50, 204, 2, 4, 7, 10, 0⟩] }) =
    some (some .invalidAddress, [50], [⟨50, 204, 2, 4, 7, 10, 0⟩], []) := by decide +kernel
theorem test_write_not_a_cell : refusalOf (takeTurn (.write 13 10000) (start [])) = some .valueNotACell := by
  decide +kernel
/-- V-W9: cells 4 to 7 of the image are overwritten. -/
theorem test_load : seen [2, 3, 4, 5, 6, 7, 8]
      (takeTurn (.load ([0, 50, 42, 10, 9999, 0, 0, 0, 1] ++ List.replicate 91 0)) (start [(60, 9)])) =
    some (some .ok, [50, 42, 10, 52, 32, 1, 42, 1], [], []) := by decide +kernel
theorem test_load_not_an_image : refusalOf (takeTurn (.load (List.replicate 99 0)) (start [])) = some .imageNotAnImage := by
  decide +kernel
/-- V-R3. -/
theorem test_reset_regs : seen [2, 3, 4, 5, 6, 7, 8]
      (takeTurn (.resetRegs (some ([0, 50, 42, 10, 7777, 0, 0, 0, 1] ++ List.replicate 41 0))) (start [])) =
    some (some .ok, [50, 42, 10, 52, 32, 1, 42, 1], [], []) := by decide +kernel
/-- V-R5. -/
theorem test_reset_prog : seen [50, 51, 52, 53, 54, 55, 60]
      (takeTurn (.resetProg .sample none) (start [(1, 0), (60, 1234)])) =
    some (some .ok, [0, 209, 302, 903, 211, 311, 1, 0], [], []) := by decide +kernel
/-- R253 with another SAMPLE_PROGRAM, and V-R4: mode zero writes none. -/
theorem test_reset_prog_given : seen [50, 53, 55, 60]
      (takeTurn (.resetProg .sample (some [1302, 1403, 411, 1, 0, 7])) (start [(1, 0), (60, 1234)])) =
      some (some .ok, [0, 1302, 1, 7, 0], [], []) ∧
    seen [50, 60] (takeTurn (.resetProg .zero none) (start [(50, 209), (60, 1234)])) =
      some (some .ok, [50, 0, 0], [], []) := by decide +kernel
theorem test_reset_prog_not_six_cells :
    refusalOf (takeTurn (.resetProg .sample (some [1, 2, 3, 4, 5])) (start [])) = some .programNotSixCells := by
  decide +kernel
/-- V-R1: the created memory. -/
theorem test_created : State.reset.mem = [(1, 50), (50, 209), (51, 302), (52, 903), (53, 211), (54, 311), (55, 1)] :=
  State.reset_mem
/-- R250: creation with a stored image. -/
theorem test_created_with_image : (nextOf (createdWith Config.regSeed Config.sampleProgram
      (some (1 :: 60 :: List.replicate 98 0)))).map
    (fun t => (t.mem, t.hist)) = some ([(0, 1), (1, 60)], []) := by decide +kernel
/-- V-B1 and V-B2. -/
theorem test_toggle : (nextOf (takeTurn (.toggleBp 53) (start []))).map (fun t => (t.bp, t.result)) =
      some ([53], some (.member true)) ∧
    (nextOf (takeTurn (.toggleBp 53) { start [] with bp := [50, 53, 99] })).map (fun t => (t.bp, t.result)) =
      some ([50, 99], some (.member false)) ∧
    (nextOf (takeTurn (.toggleBp 13) (start []))).map (fun t => (t.bp, t.result)) =
      some ([], some .invalidAddress) := by decide +kernel
/-- V-B11: a breakpoint is tested before the stop on input. -/
theorem test_loop_breakpoint_first : (nextOf (takeTurn .controller { start [(12, 4), (50, 1209), (51, 1)] with
      bp := [51], running := true })).map (fun t => (t.running, t.report, t.pc, t.cell 9)) =
    some (false, some .breakpoint, 51, 4) := by decide +kernel
/-- V-B9: MOV IN, IN stops the loop after one step. -/
theorem test_loop_input : (nextOf (takeTurn .controller { start [(50, 1212), (51, 1)] with running := true })).map
    (fun t => (t.running, t.report, t.pc)) = some (false, some .inputWait, 51) := by decide +kernel
/-- V-B10: destination 12 does not stop the loop. -/
theorem test_loop_goes_on : (nextOf (takeTurn .controller { start [(2, 3), (50, 212), (51, 1)] with running := true })).map
    (fun t => (t.running, t.atDelay, t.report, t.cell 12)) = some (true, true, none, 3) := by decide +kernel
/-- V-B5 and V-H6: Halted and Fault with no step. -/
theorem test_loop_no_step : (nextOf (takeTurn .controller { start [] with running := true })).map
      (fun t => (t.running, t.report, t.hist)) = some (false, some .halted, []) ∧
    (nextOf (takeTurn .controller { start [(1, 100)] with running := true })).map
      (fun t => (t.running, t.report, t.hist)) = some (false, some .fault, []) := by decide +kernel
/-- R207: a manual STEP while the loop runs has no transition. -/
theorem test_manual_while_running : faultOf (takeTurn .step { start [] with running := true }) =
    some .manualWhileRunning := by decide +kernel
/-- The first step from reset runs the word 209 of the sample program at address 50. -/
theorem test_first_step : seen [] (step State.reset) =
    some (some (.stepped 2 9 0), [51], [⟨50, 209, 2, 9, 0, 0, 0⟩], []) := by decide +kernel
/-- A placed word is the one the next step runs. -/
theorem test_with_fetch_word : seen [60] (step (State.reset.withFetchWord 16 160)) =
    some (some (.stepped 1 60 50), [51, 50], [⟨50, 160, 1, 60, 50, 0, 0⟩], []) := by decide +kernel

/-! ## Witnesses: for each statement with hypotheses, values that meet all of them -/

/-- A state with the counter at `pc` and the word `w` there executes that word. -/
theorem executes_of {s : State} {pc : Addr} {w : Cell} (hp : s.pc.val = pc.val) (hc : s.cell pc = w) (h0 : w ≠ 0) :
    Executes s (s.moved pc (wordSrc w) (wordDst w)) := by
  have hw : s.word? = some w := State.word?_eq_some.mpr ⟨pc, hp, hc⟩
  exact .intro w hw h0 (by rw [commandStep, hw]; exact exec_decodeCell h0 hp)

theorem startMem_wf (cells : List (Addr × Cell)) : (startMem cells).wf := by
  have fold : ∀ (cs : List (Addr × Cell)) (m : Memory), m.wf →
      Memory.wf (cs.foldl (fun (m : Memory) x => m.write x.1 x.2) m) := by
    intro cs
    induction cs with
    | nil => exact fun _ h => h
    | cons c cs ih => exact fun m h => ih _ (Memory.wf_write h c.1 c.2)
  exact Memory.wf_recompute (fold cells _ (Memory.wf_write Memory.wf_nil 1 50))

/-- Every start state meets the invariant. -/
theorem start_inv (cells : List (Addr × Cell)) : (start cells).Inv :=
  ⟨startMem_wf cells, Memory.derivedOk_recompute _, Nat.zero_le _, fun _ he => absurd he List.not_mem_nil,
    ⟨List.Pairwise.nil, fun _ ha => absurd ha List.not_mem_nil⟩, fun _ => ⟨rfl, rfl⟩⟩

/-- The loop of one instruction: word 901 at 50 with 49 in TMP jumps back to 50 (V-J, v = 49). -/
abbrev AtLoop (s : State) : Prop := s.pc.val = 50 ∧ s.cell 50 = 901 ∧ s.cell Reg.tmp = 49

theorem atLoop_step {s : State} (h : AtLoop s) : ∃ t, Executes s t ∧ AtLoop t := by
  obtain ⟨hp, hw, ht⟩ := h
  refine ⟨_, executes_of (pc := 50) hp hw (by decide), ?_⟩
  have he := State.moved_effect (s := s) (pc := 50) hp (wordSrc 901) (wordDst 901)
  have hs : wordSrc 901 = Reg.tmp := by decide
  have hd : wordDst 901 = Reg.pc := by decide
  rw [hs, hd] at he ⊢
  refine ⟨?_, ?_, ?_⟩
  · rw [he.counter, ht]; decide
  · rw [he.cells 50 (by decide) (by decide), if_neg (by decide), hw]
  · rw [he.cells Reg.tmp (by decide) (by decide), ht]; decide

theorem atLoop_steps {s : State} (h : AtLoop s) (n : Nat) : ∃ t, ExecutedSteps n s t ∧ AtLoop t := by
  induction n with
  | zero => exact ⟨s, .none s, h⟩
  | succ n ih =>
    obtain ⟨t, ht, hl⟩ := ih
    obtain ⟨u, hu, hl'⟩ := atLoop_step hl
    exact ⟨u, .more ht hu, hl'⟩

theorem loop_start : AtLoop (start [(9, 49), (50, 901)]) := by decide +kernel

theorem loop_inv : (start [(9, 49), (50, 901)]).Inv := start_inv _

theorem test_witness_DecodeOfEncodeGivesTheInstruction : (Instr.mov 99 49).wellFormed = true ∧
    (Instr.movToRom 99 50).wellFormed = true ∧ (Instr.movSame 99).wellFormed = true := by decide
theorem test_witness_DecoderSplitsTheWord : 9999 ≤ 9999 := by decide
theorem test_witness_NumbersNoCellHoldsAreRejectedByName : 9999 < 10000 := by decide
theorem test_witness_RowOfAWordDoesNotChangeItsMeaning : (Instr.mov 0 1).inRow = true ∧ (1 : Cell).val = encode (.mov 0 1) ∧
    (Instr.mov 99 99).inRow = true ∧ (9999 : Cell).val = encode (.mov 99 99) := by decide
theorem test_witness_StepRunsTheDecodedInstruction :
    (State.reset.running = false ∧ State.reset.schedule = [] ∧ State.reset.word? = some 209) ∧
    (∃ s : State, s.running = false ∧ s.schedule = [.step] ∧ s.word? = some 209) ∧
    (∃ s : State, s.running = true ∧ s.schedule = []) ∧ (∃ s : State, s.schedule = [.write 13 7]) := by
  have h : State.reset.word? = some 209 := by decide +kernel
  exact ⟨⟨rfl, rfl, h⟩, ⟨{ State.reset with schedule := [.step] }, rfl, rfl,
    (State.word?_withSchedule _ _).trans h⟩, ⟨{ State.reset with running := true }, rfl, rfl⟩,
    ⟨{ State.reset with schedule := [.write 13 7] }, rfl⟩⟩
theorem test_witness_EveryMovRowMovesOneCell : (Instr.movToRom 99 99).inRow = true ∧ Instr.movToRom 99 99 ≠ .halt ∧
    (start [(1, 99)]).pc.val = (99 : Addr).val ∧ (Instr.movToRom 99 99).src = (99 : Addr).val ∧
    (Instr.movToRom 99 99).dst = (99 : Addr).val := by decide +kernel
theorem test_witness_NormalAdvanceIsPlusOneModuloHundred : ∃ t, (start [(1, 99), (2, 5), (99, 209)]).word? = some 209 ∧
    (209 : Cell).val % 100 ≠ 1 ∧ Executes (start [(1, 99), (2, 5), (99, 209)]) t ∧
    (start [(1, 99), (2, 5), (99, 209)]).pc.val = 99 :=
  ⟨_, by decide +kernel, by decide, executes_of (pc := 99) (w := 209) (by decide +kernel) (by decide +kernel) (by decide),
    by decide +kernel⟩
theorem test_witness_JumpGoesToTheWrittenValuePlusOne : (start [(1, 99), (9, 9999)]).pc.val = (99 : Addr).val ∧
    (start [(1, 99), (9, 9999)]).mem.derivedOk ∧ Reg.tmp ≠ Reg.pc ∧ notDerived Reg.tmp := by decide +kernel
theorem test_witness_ProgramCounterWriteModes : (0 : Addr) ≠ Reg.pc ∧ (99 : Addr) ≠ Reg.pc := by decide
theorem test_witness_StopWordHaltsAtAddressZero : (start [(1, 99)]).pc.val = (99 : Addr).val ∧
    (start [(1, 99)]).cell Reg.halt = 0 := by decide +kernel
theorem test_witness_NopOnlyAdvances : (start [(1, 99)]).pc.val = (99 : Addr).val ∧ (start [(1, 99)]).mem.derivedOk := by
  decide +kernel
theorem test_witness_OperandLoadsRecomputeTheDerivedCells : (start []).pc.val = (50 : Addr).val := by decide +kernel
theorem test_witness_DerivedDestinationsDiscardTheValue : (start [(1, 0)]).pc.val = (0 : Addr).val ∧
    (start [(1, 0)]).mem.derivedOk := by decide +kernel
theorem test_witness_OutputEmitsOneEventWithTheValue : (start [(1, 99)]).pc.val = (99 : Addr).val := by decide +kernel
theorem test_witness_StoredWordIsFetchedByTheNextStep : 50 ≤ (99 : Addr).val ∧
    (start [(1, 98)]).pc.val = (98 : Addr).val ∧ (99 : Addr).val = ((98 : Addr).val + 1) % 100 := by decide +kernel
theorem test_witness_HaltCellIsWrittenLikeAnyOther : Reg.a ≠ Reg.halt ∧ (start [(1, 99), (2, 7)]).pc.val = (99 : Addr).val ∧
    (start [(1, 99), (2, 7)]).cell Reg.a ≠ 0 := by decide +kernel
theorem test_witness_ReadingTheCounterGivesTheOwnAddress : (start [(1, 0)]).pc.val = (0 : Addr).val ∧ Reg.tmp ≠ Reg.pc ∧
    notDerived Reg.tmp := by decide +kernel
theorem test_witness_ReadingADerivedCellGivesTheCurrentArithmetic : (start [(2, 7)]).pc.val = (50 : Addr).val ∧
    (start [(2, 7)]).mem.derivedOk ∧ Reg.out ≠ Reg.pc ∧ notDerived Reg.out := by decide +kernel
theorem test_witness_MovingTheHaltCellClears : (99 : Addr) ≠ Reg.halt ∧ (start []).pc.val = (50 : Addr).val ∧
    (start []).cell Reg.halt = 0 ∧ notDerived 99 := by decide +kernel
theorem test_witness_InputIsCopiedAndNotConsumed : (start [(12, 77)]).pc.val = (50 : Addr).val ∧ Reg.out ≠ Reg.pc ∧
    notDerived Reg.out := by decide +kernel
theorem test_witness_MovingACellToItselfChangesOnlyTheCounter : Reg.pc ≠ Reg.halt ∧
    (start [(1, 0)]).pc.val = (0 : Addr).val ∧ (start [(1, 0)]).mem.derivedOk := by decide +kernel
theorem test_witness_HaltIsAFixedPointLeftOnlyByEditsAndUndo : (start []).pc.val = (50 : Addr).val ∧ (start []).cell 50 = 0 ∧
    (start []).halted ∧
    ∃ t, takeTurn (.write 50 209) (start []) = .next t ∧ ¬ t.halted :=
  ⟨by decide +kernel, by decide +kernel, by decide +kernel,
    (start []).edited (((start []).mem.write 50 209).recompute), rfl, by decide +kernel⟩
theorem test_witness_CounterAboveNinetyNineOnlySignals : (start [(1, 100)]).pcInvalid ∧
    ∃ t, takeTurn (.write 1 99) (start [(1, 100)]) = .next t ∧ ¬ t.pcInvalid :=
  ⟨by decide +kernel, (start [(1, 100)]).edited (((start [(1, 100)]).mem.write 1 99).recompute), rfl, by decide +kernel⟩
theorem test_witness_StepAnswersOneOfThreeWays : 99 < (start [(1, 100)]).pc.val ∧ (start [(1, 0)]).halted ∧
    (start [(1, 99), (99, 9999)]).word? = some 9999 ∧ (9999 : Cell) ≠ 0 := by decide +kernel
theorem test_witness_DerivedUnitArithmetic : (5000 : Cell).val + (4999 : Cell).val < 10000 ∧
    10000 ≤ (5000 : Cell).val + (5000 : Cell).val ∧ (5 : Cell).val ≤ (5 : Cell).val ∧ (5 : Cell).val < (6 : Cell).val ∧
    (1 : Cell) ≠ 0 ∧ (0 : Cell) = 0 := by decide
theorem test_witness_RecomputeRewritesOnlyTheDerivedCells : (startMem [(2, 7)]).wf ∧ notDerived 8 :=
  ⟨startMem_wf _, by decide⟩
theorem test_witness_PushDropsTheOldestAtCapacity :
    (List.replicate 100 (⟨50, 209, 2, 9, 42, 0, 0⟩ : Entry)).length = 100 ∧
    (List.replicate 99 (⟨50, 209, 2, 9, 42, 0, 0⟩ : Entry)).length ≠ 100 ∧
    (List.replicate 99 (⟨50, 209, 2, 9, 42, 0, 0⟩ : Entry)).length ≤ 100 := by
  simp only [List.length_replicate]; decide
theorem test_witness_OneEntryPerExecutedInstruction :
    ((start [(1, 99), (99, 209)]).pc.val = (99 : Addr).val ∧ (start [(1, 99), (99, 209)]).cell 99 = 209 ∧ (209 : Cell) ≠ 0) ∧
    (∃ t, commandStep (start []) = .next t ∧ t.result = some .haltedNoOp) ∧
    (∃ t, commandStep (start [(1, 100)]) = .next t ∧ t.result = some .invalidAddress) := by
  have h0 : (start []).word? = some 0 := by decide +kernel
  have h1 : (start [(1, 100)]).word? = none := by decide +kernel
  exact ⟨by decide +kernel, ⟨(start []).answer .haltedNoOp, by rw [commandStep, h0]; rfl, rfl⟩,
    ⟨(start [(1, 100)]).answer .invalidAddress, by rw [commandStep, h1], rfl⟩⟩
/-- An entry that recorded the counter twice (a jump), and one that recorded OUT twice. -/
abbrev jumpEntry : Entry := ⟨50, 901, 9, 1, 0, 50, 0⟩
abbrev outEntry : Entry := ⟨50, 1111, 11, 11, 5, 5, 5⟩
theorem test_witness_StepBackRestoresFromTheNewestEntry :
    (∃ s : State, s.running = false ∧ s.hist = [outEntry] ++ [jumpEntry]) ∧
    (∃ s : State, s.running = false ∧ s.hist = [] ++ [outEntry]) ∧
    (∃ s : State, s.running = false ∧ s.hist = [] ++ [⟨50, 209, 2, 9, 42, 0, 0⟩]) ∧
    (start []).running = false ∧ (start []).hist = [] :=
  ⟨⟨{ start [] with hist := [outEntry, jumpEntry] }, rfl, rfl⟩, ⟨{ start [] with hist := [outEntry] }, rfl, rfl⟩,
    ⟨{ start [] with hist := [⟨50, 209, 2, 9, 42, 0, 0⟩] }, rfl, rfl⟩, rfl, rfl⟩
theorem test_witness_RestoresOfAnUndoCommute :
    (∃ s : State, s.hist = [outEntry] ++ [jumpEntry]) ∧ jumpEntry.wf ∧
    ([(11, 0), (1, 50), (1, 50)] : List (Addr × Cell)).Perm [(1, 50), (1, 50), (11, 0)] ∧
    (∃ s : State, s.hist = [] ++ [outEntry]) ∧ outEntry.wf ∧
    ([(11, 5), (11, 5), (1, 50)] : List (Addr × Cell)).Perm [(1, 50), (11, 5), (11, 5)] :=
  ⟨⟨{ start [] with hist := [outEntry, jumpEntry] }, rfl⟩, by decide, by decide,
    ⟨{ start [] with hist := [outEntry] }, rfl⟩, by decide, by decide⟩
theorem test_witness_UndoInvertsAnExecutedInstruction : ∃ s t, State.Inv s ∧ Executes s t := by
  obtain ⟨t, ht, _⟩ := atLoop_step loop_start
  exact ⟨_, t, loop_inv, ht⟩
theorem test_witness_UndoInvertsUpToHundredInstructions : ∃ s t, State.Inv s ∧ ExecutedSteps 100 s t ∧ 100 ≤ 100 := by
  obtain ⟨t, ht, _⟩ := atLoop_steps loop_start 100
  exact ⟨_, t, loop_inv, ht, Nat.le_refl _⟩
theorem test_witness_UndoReachesBackExactlyHundredInstructions : ∃ r t, State.Inv r ∧ ExecutedSteps 100 r t := by
  obtain ⟨t, ht, _⟩ := atLoop_steps loop_start 100
  exact ⟨_, t, loop_inv, ht⟩
theorem test_witness_ResetHoldsTheCreatedValues : Config.regSeed.length = 50 ∧ Config.sampleProgram.length = 6 ∧
    ((49 : Addr).val < 50 ∧ (49 : Addr) ≠ Reg.pc ∧ notDerived 49) ∧ (55 : Addr).val - 50 < Config.sampleProgram.length ∧
    (55 : Addr).val < 56 ∧ 56 ≤ (56 : Addr).val ∧ (List.replicate 100 (9999 : Cell)).length = 100 ∧
    (List.replicate 99 0).length ≠ 100 ∧ (∃ n ∈ List.replicate 100 10000, 9999 < n) :=
  ⟨regSeed_length, rfl, by decide, by decide, by decide, by decide, List.length_replicate,
    by simp only [List.length_replicate]; decide, ⟨10000, by simp, by decide⟩⟩
theorem test_witness_EveryStepKeepsTheInvariant : ∃ t, (start [(9, 49), (50, 901)]).Inv ∧
    step (start [(9, 49), (50, 901)]) = .next t :=
  ⟨_, loop_inv, exec_decodeCell (s := start [(9, 49), (50, 901)]) (w := 901) (pc := 50) (by decide) loop_start.1⟩
theorem test_witness_StepAndUndoKeepTheCounterInRange :
    (∃ s t : State, s.pc.val ≤ 99 ∧ commandStep s = .next t) ∧
    (∃ s t : State, (∀ e ∈ s.hist, e.wf) ∧ s.hist ≠ [] ∧ commandStepBack s = .next t) := by
  obtain ⟨t, ⟨_, _, _, h⟩, _⟩ := atLoop_step loop_start
  refine ⟨⟨_, t, by decide +kernel, h⟩, { start [] with hist := [⟨99, 901, 9, 1, 100, 99, 0⟩] }, _, ?_, by decide, rfl⟩
  intro e he
  rw [List.mem_singleton.mp he]
  decide
theorem test_witness_OutputLogOnlyGrowsByInstructions : ∃ t, step (start [(2, 10), (50, 211)]) = .next t ∧ t.outLog = [10] :=
  ⟨_, exec_decodeCell (s := start [(2, 10), (50, 211)]) (w := 211) (pc := 50) (by decide) (by decide +kernel),
    by decide +kernel⟩
theorem test_witness_SignalsChangeNothing :
    (∃ t, takeTurn (.write 100 1) (start []) = .next t ∧ t.result = some .invalidAddress) ∧
    (∃ t, takeTurn .stepBack (start []) = .next t ∧ t.result = some .emptyHistory) ∧
    (∃ t, takeTurn .step (start []) = .next t ∧ t.result = some .haltedNoOp) := by
  have h0 : (start []).word? = some 0 := by decide +kernel
  refine ⟨⟨_, rfl, rfl⟩, ⟨_, rfl, rfl⟩, ⟨(start []).answer .haltedNoOp, ?_, rfl⟩⟩
  change commandStep (start []) = _
  rw [commandStep, h0]; rfl
theorem test_witness_WriteStoresRecomputesAndClears : (start []).running = false ∧ notDerived 99 ∧ notDerived 0 :=
  ⟨rfl, by decide, by decide⟩
theorem test_witness_RejectedWriteChangesNothing : (start []).running = false ∧ 99 < 100 := ⟨rfl, by decide⟩
theorem test_witness_LoadReplacesEveryCell : (List.replicate 100 (9999 : Cell)).length = 100 ∧
    (start []).running = false ∧ notDerived 99 := ⟨List.length_replicate, rfl, by decide⟩
theorem test_witness_LoadingTheSavedImageRestoresMemory : (start [(2, 7)]).running = false ∧ (start [(2, 7)]).mem.wf ∧
    (start [(2, 7)]).mem.derivedOk := ⟨rfl, (start_inv _).memWf, by decide +kernel⟩
theorem test_witness_InputsThatAreNoCellsAreRefused : (start []).running = false ∧ 9999 < 10000 ∧
    (List.replicate 99 0).length ≠ 100 ∧ (∃ n ∈ List.replicate 100 10000, 9999 < n) ∧
    (List.replicate 51 0).length ≠ 50 ∧ (∃ n ∈ List.replicate 50 10000, 9999 < n) ∧
    (List.replicate 7 0).length ≠ 6 ∧ (∃ n ∈ List.replicate 6 10000, 9999 < n) :=
  ⟨rfl, by decide, by simp only [List.length_replicate]; decide, ⟨10000, by simp, by decide⟩,
    by simp only [List.length_replicate]; decide, ⟨10000, by simp, by decide⟩,
    by simp only [List.length_replicate]; decide, ⟨10000, by simp, by decide⟩⟩
theorem test_witness_RegisterResetWritesTheSeed : (List.replicate 50 (9999 : Cell)).length = 50 ∧
    (start []).running = false ∧ ((49 : Addr).val < 50 ∧ notDerived 49 ∧ (49 : Addr) ≠ Reg.pc) ∧ 50 ≤ (50 : Addr).val :=
  ⟨List.length_replicate, rfl, by decide, by decide⟩
theorem test_witness_ProgramResetFillsTheProgramCells : (start []).running = false ∧ (start []).mem.derivedOk ∧
    (List.replicate 6 (9999 : Cell)).length = 6 ∧ (49 : Addr).val < 50 ∧ 50 ≤ (50 : Addr).val ∧ (55 : Addr).val < 56 ∧
    56 ≤ (56 : Addr).val := ⟨rfl, by decide +kernel, List.length_replicate, by decide⟩
theorem test_witness_BothResetsGiveTheCreatedMemory : (start [(60, 9)]).running = false ∧ (start [(60, 9)]).mem.wf ∧
    (List.replicate 50 (9999 : Cell)).length = 50 ∧ (List.replicate 6 (9999 : Cell)).length = 6 :=
  ⟨rfl, (start_inv _).memWf, List.length_replicate, List.length_replicate⟩
theorem test_witness_DirectEditsForfeitUndo :
    ((∃ t, takeTurn (.write 13 7) (start []) = .next t ∧ t.result = some .ok) ∧
     (∃ t, takeTurn (.load (List.replicate 100 0)) (start []) = .next t ∧ t.result = some .ok) ∧
     (∃ t, takeTurn (.resetRegs none) (start []) = .next t ∧ t.result = some .ok) ∧
     (∃ t, takeTurn (.resetProg .sample none) (start []) = .next t ∧ t.result = some .ok)) ∧
    ((∃ t, takeTurn (.toggleBp 50) (start []) = .next t) ∧ (∃ t, takeTurn .run (start []) = .next t) ∧
     (∃ t, takeTurn .cancel (start []) = .next t)) ∧
    (∃ t, takeTurn .step (start []) = .next t) ∧ (∃ t, takeTurn .stepBack (start []) = .next t) := by
  have h0 : (start []).word? = some 0 := by decide +kernel
  have hl : cellsOfLength Config.memSize (List.replicate 100 0) = some (List.replicate 100 0) := by decide +kernel
  have load : takeTurn (.load (List.replicate 100 0)) (start []) =
      .next ((start []).edited (Memory.ofImage (List.replicate 100 0))) := by
    simp only [takeTurn, whenStopped, show (start []).running = false from rfl, commandLoad, hl, Bool.false_eq_true, if_false]
  refine ⟨⟨⟨_, rfl, rfl⟩, ⟨_, load, rfl⟩, ⟨_, rfl, rfl⟩, ⟨_, rfl, rfl⟩⟩, ⟨⟨_, rfl⟩, ⟨_, rfl⟩, ⟨_, rfl⟩⟩,
    ⟨(start []).answer .haltedNoOp, ?_⟩, ⟨_, rfl⟩⟩
  change commandStep (start []) = _
  rw [commandStep, h0]; rfl
theorem test_witness_HostReadReturnsTheCell : 99 < 100 := by decide
theorem test_witness_ToggleBreakpointFlipsMembership : bpWf [50, 99] ∧ 50 ≤ (50 : Addr).val ∧ 50 ≤ (99 : Addr).val ∧
    (∃ s : State, bpWf s.bp ∧ s.bp = [50, 99]) :=
  ⟨by decide, by decide, by decide, { start [] with bp := [50, 99] }, by decide, rfl⟩
theorem test_witness_BreakpointsOutsideProgramCellsAreRejected : (49 < 50 ∨ 99 < 49) ∧ (100 < 50 ∨ 99 < 100) := by decide
theorem test_witness_OnlyToggleChangesBreakpoints : (∃ t, takeTurn (.toggleBp 99) (start []) = .next t) ∧
    (∃ t, takeTurn .run (start []) = .next t) ∧ (∃ t, exec .halt (start []) = .next t) :=
  ⟨⟨_, rfl⟩, ⟨_, rfl⟩, ⟨_, rfl⟩⟩
theorem test_witness_RunStartsTheLoopAndNothingElse : (start []).running = false ∧ (∃ s : State, s.running = true) :=
  ⟨rfl, { start [] with running := true }, rfl⟩

/-- The loop running on these cells, about to start an iteration. -/
def looping (cells : List (Addr × Cell)) : State := { start cells with running := true }

theorem test_witness_LoopIterationStopsForItsReasons :
    (∀ cells, (looping cells).running = true ∧ (looping cells).atDelay = false) ∧
    99 < (looping [(1, 100)]).pc.val ∧ (looping []).halted ∧
    (∃ u, (looping [(50, 1211)]).word? = some 1211 ∧ (1211 : Cell) ≠ 0 ∧ commandStep (looping [(50, 1211)]) = .next u ∧
      (¬ ∃ b ∈ u.bp, b.val = u.pc.val) ∧ (1211 : Cell).val / 100 = 12) ∧
    (∃ u, (looping [(50, 901)]).word? = some 901 ∧ (901 : Cell) ≠ 0 ∧ commandStep (looping [(50, 901)]) = .next u ∧
      (¬ ∃ b ∈ u.bp, b.val = u.pc.val) ∧ (901 : Cell).val / 100 ≠ 12) ∧
    (∃ s u : State, s.word? = some 901 ∧ commandStep s = .next u ∧ ∃ b ∈ u.bp, b.val = u.pc.val) ∧
    (∃ s : State, s.running = true ∧ s.atDelay = true ∧ s.cancelRequested = false) ∧
    (∃ s : State, s.running = true ∧ s.atDelay = true ∧ s.cancelRequested = true) ∧ (start []).running = false := by
  have none (cells : List (Addr × Cell)) (pc src dst : Addr) :
      ¬ ∃ b ∈ ((looping cells).moved pc src dst).bp, b.val = ((looping cells).moved pc src dst).pc.val :=
    fun ⟨b, hb, _⟩ => absurd hb List.not_mem_nil
  have step_of (s : State) (w : Cell) (hw : s.word? = some w) (h0 : w ≠ 0) (hp : s.pc.val = (50 : Addr).val) :
      commandStep s = .next (s.moved 50 (wordSrc w) (wordDst w)) := by
    rw [commandStep, hw]; exact exec_decodeCell h0 hp
  have w1 : (looping [(50, 1211)]).word? = some 1211 := by decide +kernel
  have w2 : (looping [(50, 901)]).word? = some 901 := by decide +kernel
  have w3 : State.word? { looping [(9, 49), (50, 901)] with bp := [50] } = some 901 := by decide +kernel
  exact ⟨fun _ => ⟨rfl, rfl⟩, by decide +kernel, by decide +kernel,
    ⟨_, w1, by decide, step_of _ _ w1 (by decide) (by decide +kernel), none _ _ _ _, by decide⟩,
    ⟨_, w2, by decide, step_of _ _ w2 (by decide) (by decide +kernel), none _ _ _ _, by decide⟩,
    ⟨_, _, w3, step_of _ _ w3 (by decide) (by decide +kernel), by decide +kernel⟩,
    ⟨{ looping [] with atDelay := true }, rfl, rfl, rfl⟩,
    ⟨{ looping [] with atDelay := true, cancelRequested := true }, rfl, rfl, rfl⟩, rfl⟩
/-- The cases of an iteration that a request comes before are those of `LoopIterationStopsForItsReasons`. -/
theorem test_witness_CancelIsSeenAtTheDelayBoundary :
    (∃ s c : State, s.running = true ∧ s.atDelay = true ∧ takeTurn .cancel s = .next c) ∧
    (∀ cells, ∃ c : State, (looping cells).running = true ∧ (looping cells).atDelay = false ∧
      takeTurn .cancel (looping cells) = .next c) ∧
    99 < (looping [(1, 100)]).pc.val ∧ (looping []).halted ∧ (looping [(50, 901)]).word? = some 901 ∧ (901 : Cell) ≠ 0 ∧
    (start []).running = false :=
  ⟨⟨{ looping [] with atDelay := true }, _, rfl, rfl, rfl⟩, fun cells => ⟨_, rfl, rfl, rfl⟩, by decide +kernel,
    by decide +kernel, by decide +kernel, by decide, rfl⟩
theorem test_witness_ManualCommandsWhileRunningHaveNoTransition : (looping []).running = true := rfl

end Sys2Proof.Tests
end

