-- ==== Sys2Proof/Proofs/ProgramReset.lean ====
section
/-! RESET_PROG (R253 of 70_reset_and_hazards.md): its cells in each mode, its turn while the loop is stopped, and the
obligation O50 assembled from these. -/

namespace Sys2Proof.Machine

/-! The cells of the reset memory. -/

/-- Where the derived cells follow A, B, C already, the program reset changes no register or RAM cell (R253). -/
theorem Memory.read_resetProg_low_of_derivedOk {m : Memory} (h : m.derivedOk) (program : List Cell) (mode : ProgMode)
    {a : Addr} (ha : a.val < 50) : (m.resetProg program mode).read a = m.read a :=
  (Memory.read_resetProg_low m program mode ha).trans (Memory.read_recompute_of_derivedOk h a)

theorem Memory.read_resetProg_zero_high (m : Memory) (program : List Cell) {a : Addr} (ha : 50 ≤ a.val) :
    (m.resetProg program .zero).read a = 0 :=
  Memory.read_resetProg_high m program .zero ha

theorem Memory.read_resetProg_sample_of_lt (m : Memory) (program : List Cell) {a : Addr} (ha : 50 ≤ a.val)
    (h : a.val - 50 < program.length) : (m.resetProg program .sample).read a = program[a.val - 50] :=
  (Memory.read_resetProg_high m program .sample ha).trans (dif_pos h)

theorem Memory.read_resetProg_sample_of_ge (m : Memory) (program : List Cell) {a : Addr} (ha : 50 ≤ a.val)
    (h : program.length ≤ a.val - 50) : (m.resetProg program .sample).read a = 0 :=
  (Memory.read_resetProg_high m program .sample ha).trans (dif_neg (Nat.not_lt.mpr h))

/-! The turn. -/

/-- While the loop is stopped a manual command is just the command (R207). -/
theorem whenStopped_of_stopped {s : State} (h : s.running = false)
    (command : State → Host.Outcome State Fault Refusal) : whenStopped s command = command s := by
  simp [whenStopped, h]

/-- Six given cells are accepted as the program, and the reset is an edit of the memory (R8, R253). -/
theorem commandResetProg_given (mode : ProgMode) {program : List Cell} (hp : program.length = 6) (s : State) :
    commandResetProg mode (some (program.map Fin.val)) s = .next (s.edited (s.mem.resetProg program mode)) := by
  have hc : cellsOrDefault Config.sampleProgram Config.sampleCount (some (program.map Fin.val)) = some program :=
    cellsOrDefault_map_val _ hp
  rw [commandResetProg, hc]

/-- Giving no program is giving the default one (R8, D10). -/
theorem commandResetProg_default (mode : ProgMode) (s : State) :
    commandResetProg mode none s = commandResetProg mode (some (Config.sampleProgram.map Fin.val)) s :=
  (commandResetProg_given mode sampleProgram_length s).symm

theorem takeTurn_resetProg {s : State} (h : s.running = false) (mode : ProgMode) {program : List Cell}
    (hp : program.length = 6) :
    takeTurn (.resetProg mode (some (program.map Fin.val))) s = .next (s.edited (s.mem.resetProg program mode)) :=
  (whenStopped_of_stopped h _).trans (commandResetProg_given mode hp s)

theorem takeTurn_resetProg_default (mode : ProgMode) (s : State) :
    takeTurn (.resetProg mode none) s = takeTurn (.resetProg mode (some (Config.sampleProgram.map Fin.val))) s :=
  congrArg (whenStopped s) (funext (commandResetProg_default mode))

/-- Beside the memory, an edit empties the history, emits nothing, answers Ok and touches no other field (R165, R187). -/
theorem State.edited_frame (s : State) (m : Memory) : (s.edited m).hist = [] ∧ (s.edited m).outLog = s.outLog ∧
    (s.edited m).result = some .ok ∧ s.sameOutside (s.edited m) :=
  ⟨s.edited_hist m, s.edited_outLog m, s.edited_result m, s.edited_outside m⟩

/-- Settles O50: in each mode the turn is an edit of the memory, so what is left is its cells, range by range. -/
theorem programResetFillsTheProgramCells : Obligations.ProgramResetFillsTheProgramCells := by
  intro s program hp hstopped hderived
  have low (mode : ProgMode) (a : Addr) (ha : a.val < 50) :
      (s.edited (s.mem.resetProg program mode)).cell a = s.cell a := by
    rw [State.cell_edited]
    exact Memory.read_resetProg_low_of_derivedOk hderived program mode ha
  refine ⟨⟨_, takeTurn_resetProg hstopped .zero hp, low .zero, fun a ha => ?_, s.edited_frame _⟩,
    ⟨_, takeTurn_resetProg hstopped .sample hp, low .sample, fun a hlt ha => ?_, fun a ha => ?_, s.edited_frame _⟩,
    fun mode => takeTurn_resetProg_default mode s⟩
  · rw [State.cell_edited]
    exact Memory.read_resetProg_zero_high s.mem program ha
  · rw [State.cell_edited]
    exact Memory.read_resetProg_sample_of_lt s.mem program ha (by omega)
  · rw [State.cell_edited]
    exact Memory.read_resetProg_sample_of_ge s.mem program (by omega) (by omega)

end Sys2Proof.Machine
end

