-- ==== Sys2Proof/Proofs/DecoderAndDerivedUnit.lean ====
section
/-! The Instruction Decoder's split of a word (R110 of 40_decoder_and_derived_unit.md), the arithmetic of the four derived
registers (R112 to R115), the rewriting of cells 4 to 7 (R118), and the obligations O3, O28 and O29 assembled from these. -/

namespace Sys2Proof

/-! The split of a word. -/

/-- The two halves of any number make the number again, whatever its size (R90, R110). -/
theorem joinWord_splitWord (w : Nat) : joinWord (splitWord w).1 (splitWord w).2 = w :=
  Nat.div_add_mod w 100

/-- The upper half is an address exactly where the number is a cell value (R111). -/
theorem splitWord_fst_le_iff (w : Nat) : (splitWord w).1 ≤ 99 ↔ w ≤ 9999 := by
  simp only [splitWord]; omega

/-- The lower half is always an address. -/
theorem splitWord_snd_le (w : Nat) : (splitWord w).2 ≤ 99 := by
  simp only [splitWord]; omega

/-- Settles O3: the halves are quotient and remainder, and word 0 never reaches them, since HALT is tested first. -/
theorem decoderSplitsTheWord : Obligations.DecoderSplitsTheWord :=
  ⟨fun w => ⟨rfl, joinWord_splitWord w⟩, fun w hw => ⟨(splitWord_fst_le_iff w).mpr hw, splitWord_snd_le w⟩, rfl,
    decodeCell_zero⟩

end Sys2Proof

namespace Sys2Proof.Machine

/-! The four functions, a case of their inputs at a time. -/

/-- No carry out of the fourth digit (R112). -/
theorem deriveSum_val_of_lt {a b : Cell} (h : a.val + b.val < 10000) : (deriveSum a b).val = a.val + b.val := by
  rw [deriveSum_val, Nat.mod_eq_of_lt h]

/-- The carry is dropped: two cells sum to less than twice the modulus (R112). -/
theorem deriveSum_val_of_ge {a b : Cell} (h : 10000 ≤ a.val + b.val) :
    (deriveSum a b).val = a.val + b.val - 10000 := by
  rw [deriveSum_val]; omega

/-- No borrow (R113). -/
theorem deriveSub_val_of_le {a b : Cell} (h : b.val ≤ a.val) : (deriveSub a b).val = a.val - b.val := by
  rw [deriveSub_val]; omega

/-- A borrow adds the modulus once (R113). -/
theorem deriveSub_val_of_lt {a b : Cell} (h : a.val < b.val) : (deriveSub a b).val = a.val + 10000 - b.val := by
  rw [deriveSub_val]; omega

theorem deriveCmp_of_gt {a b : Cell} (h : b.val < a.val) : deriveCmp a b = 1 := if_pos h

theorem deriveCmp_of_le {a b : Cell} (h : a.val ≤ b.val) : deriveCmp a b = 0 := if_neg (Nat.not_lt.mpr h)

theorem deriveTrn_of_ne_zero (a b : Cell) {c : Cell} (h : c ≠ 0) : deriveTrn a b c = a :=
  if_pos (Fin.val_ne_zero_iff.mpr h)

@[simp] theorem deriveTrn_zero (a b : Cell) : deriveTrn a b 0 = b := rfl

/-- Settles O28: each of the four functions, case by case of its inputs. -/
theorem derivedUnitArithmetic : Obligations.DerivedUnitArithmetic := by
  intro a b c
  refine ⟨deriveSum_val a b, deriveSum_val_of_lt, deriveSum_val_of_ge, deriveSub_val_of_le, deriveSub_val_of_lt,
    deriveCmp_of_gt, deriveCmp_of_le, deriveTrn_of_ne_zero a b, ?_⟩
  rintro rfl
  exact deriveTrn_zero a b

/-! Rewriting cells 4 to 7. -/

/-- On a canonical snapshot whose derived cells follow A, B, C already, `recompute` gives the same list (R42, R118). -/
theorem Memory.recompute_of_derivedOk {m : Memory} (hwf : m.wf) (h : m.derivedOk) : m.recompute = m :=
  Memory.ext_of_wf (Memory.wf_recompute hwf) hwf (Memory.read_recompute_of_derivedOk h)

theorem Memory.recompute_recompute {m : Memory} (hwf : m.wf) : m.recompute.recompute = m.recompute :=
  Memory.recompute_of_derivedOk (Memory.wf_recompute hwf) m.derivedOk_recompute

/-- Settles O29: the derived cells one by one, the frame, and idempotence, which holds because the first recompute already
makes cells 4 to 7 follow A, B, C and keeps the canonical form. -/
theorem recomputeRewritesOnlyTheDerivedCells : Obligations.RecomputeRewritesOnlyTheDerivedCells := by
  intro m
  refine ⟨m.read_recompute_sum, m.read_recompute_sub, m.read_recompute_cmp, m.read_recompute_trn, ?_,
    Memory.recompute_recompute⟩
  intro a ⟨h4, h5, h6, h7⟩
  exact m.read_recompute_of_ne h4 h5 h6 h7

end Sys2Proof.Machine
end

