-- ==== Sys2Proof/Proofs/StepMovHalt.lean ====
section
/-! STEP, MOV and HALT (41_step_mov_halt.md): the counter's advance (R136), the operand loads (R139), the output (R138), the
derived sources (R142), the halted condition (R131), the entry of an executed instruction (R135), and the obligations O10, O15,
O17, O21, O25 and O32 assembled from these. -/

namespace Sys2Proof.Machine

/-! Executing a word. -/

/-- A row whose operands are the two addresses moves between them, at a counter that is an address (R133). -/
theorem exec_of_operands {i : Instr} {s : State} {pc src dst : Addr} (hi : i ≠ .halt) (hs : i.src = src.val)
    (hd : i.dst = dst.val) (hp : s.pc.val = pc.val) : exec i s = .next (s.moved pc src dst) := by
  rw [exec_eq_runMove hi, hs, hd, runMove_of_lt src.isLt dst.isLt, moveCell_of_pc hp]

/-- STEP at a word other than 0 moves between the addresses the word's halves are (R130, R133). -/
theorem commandStep_of_ne_zero {s : State} {pc : Addr} {w : Cell} (hp : s.pc.val = pc.val) (hc : s.cell pc = w)
    (h0 : w ≠ 0) : commandStep s = .next (s.moved pc (wordSrc w) (wordDst w)) := by
  rw [commandStep, State.word?_eq_some.mpr ⟨pc, hp, hc⟩]
  exact exec_decodeCell h0 hp

/-- An executed word is at an address, and its STEP is the move it spells. -/
theorem Executes.eq_moved {s t : State} {w : Cell} (h : Executes s t) (hw : s.word? = some w) :
    ∃ pc : Addr, s.pc.val = pc.val ∧ t = s.moved pc (wordSrc w) (wordDst w) := by
  obtain ⟨w', hw', h0, hstep⟩ := h
  obtain rfl : w' = w := Option.some.inj (hw'.symm.trans hw)
  obtain ⟨pc, hp, hc⟩ := State.word?_eq_some.mp hw
  rw [commandStep_of_ne_zero hp hc h0] at hstep
  cases hstep
  exact ⟨pc, hp, rfl⟩

/-- Settles O10: the executed word moves to a cell other than 1, so the counter's clause of the move is the plain advance. -/
theorem normalAdvanceIsPlusOneModuloHundred : Obligations.NormalAdvanceIsPlusOneModuloHundred := by
  intro s t w hw hdst hex
  obtain ⟨pc, hp, rfl⟩ := hex.eq_moved hw
  have hne : wordDst w ≠ Reg.pc := fun e => hdst (congrArg Fin.val e)
  have hcounter := (State.moved_effect hp (wordSrc w) (wordDst w)).counter
  rw [if_neg hne, ← hp] at hcounter
  exact ⟨hcounter, fun h99 => by rw [hcounter, h99]⟩

/-! The cells after a move. -/

theorem MovEffect.cell_dst {s t : State} {pc src dst : Addr} (h : MovEffect s t pc src dst) (hpc : dst ≠ Reg.pc)
    (hd : notDerived dst) : t.cell dst = s.cell src :=
  (h.cells dst hpc hd).trans (if_pos rfl)

theorem MovEffect.cell_of_ne {s t : State} {pc src dst a : Addr} (h : MovEffect s t pc src dst) (hpc : a ≠ Reg.pc)
    (hne : a ≠ dst) (hd : notDerived a) : t.cell a = s.cell a :=
  (h.cells a hpc hd).trans (if_neg hne)

theorem deriveCmp_val (a b : Cell) : (deriveCmp a b).val = if b.val < a.val then 1 else 0 := by
  unfold deriveCmp
  split <;> rfl

theorem deriveTrn_eq (a b c : Cell) : deriveTrn a b c = if c ≠ 0 then a else b := by
  by_cases hc : c = 0
  · subst hc; rfl
  · rw [deriveTrn_of_ne_zero a b hc, if_pos hc]

/-- The four derived cells in numbers, where they follow the A, B, C the state holds (R42, R112 to R115). -/
theorem State.derived_values {t : State} (h : t.mem.derivedOk) {a b c : Cell} (ha : t.cell Reg.a = a)
    (hb : t.cell Reg.b = b) (hc : t.cell Reg.c = c) :
    (t.cell Reg.sum).val = (a.val + b.val) % 10000 ∧
    (t.cell Reg.sub).val = (a.val + 10000 - b.val) % 10000 ∧
    (t.cell Reg.cmp).val = (if b.val < a.val then 1 else 0) ∧
    t.cell Reg.trn = (if c ≠ 0 then a else b) := by
  subst ha hb hc
  obtain ⟨hsum, hsub, hcmp, htrn⟩ := h
  exact ⟨(congrArg Fin.val hsum).trans (deriveSum_val _ _), (congrArg Fin.val hsub).trans (deriveSub_val _ _),
    (congrArg Fin.val hcmp).trans (deriveCmp_val _ _), htrn.trans (deriveTrn_eq _ _ _)⟩

/-- After a move cells 4 to 7 follow the operands it leaves: the value moved in the destination, the old content elsewhere. -/
theorem MovEffect.derived_values {s t : State} {pc src dst : Addr} (h : MovEffect s t pc src dst) {a b c : Cell}
    (ha : (if Reg.a = dst then s.cell src else s.cell Reg.a) = a)
    (hb : (if Reg.b = dst then s.cell src else s.cell Reg.b) = b)
    (hc : (if Reg.c = dst then s.cell src else s.cell Reg.c) = c) :
    (t.cell Reg.sum).val = (a.val + b.val) % 10000 ∧
    (t.cell Reg.sub).val = (a.val + 10000 - b.val) % 10000 ∧
    (t.cell Reg.cmp).val = (if b.val < a.val then 1 else 0) ∧
    t.cell Reg.trn = (if c ≠ 0 then a else b) :=
  State.derived_values h.derived ((h.cells Reg.a (by decide) (by decide)).trans ha)
    ((h.cells Reg.b (by decide) (by decide)).trans hb) ((h.cells Reg.c (by decide) (by decide)).trans hc)

/-- Settles O15: the operand written holds the value, the other two are unchanged, and cells 4 to 7 follow the three. -/
theorem operandLoadsRecomputeTheDerivedCells : Obligations.OperandLoadsRecomputeTheDerivedCells := by
  intro s pc src hp
  have effect (dst : Addr) := State.moved_effect hp src dst
  refine ⟨rfl, rfl, rfl,
    ⟨_, exec_of_operands nofun rfl rfl hp, effect Reg.a, (effect Reg.a).cell_dst (by decide) (by decide), ?_⟩,
    ⟨_, exec_of_operands nofun rfl rfl hp, effect Reg.b, (effect Reg.b).cell_dst (by decide) (by decide), ?_⟩,
    ⟨_, exec_of_operands nofun rfl rfl hp, effect Reg.c, (effect Reg.c).cell_dst (by decide) (by decide), ?_⟩⟩
  · exact (effect Reg.a).derived_values (if_pos rfl) (if_neg (by decide)) (if_neg (by decide))
  · exact (effect Reg.b).derived_values (if_neg (by decide)) (if_pos rfl) (if_neg (by decide))
  · exact (effect Reg.c).derived_values (if_neg (by decide)) (if_neg (by decide)) (if_pos rfl)

/-- Settles O17: every clause is one of the move's to cell 11, and its entry recorded cell 11 both as destination and as OUT. -/
theorem outputEmitsOneEventWithTheValue : Obligations.OutputEmitsOneEventWithTheValue := by
  intro s pc src hp
  have effect := State.moved_effect hp src Reg.out
  exact ⟨rfl, _, _, exec_of_operands nofun rfl rfl hp, effect, effect.output, effect.cell_dst (by decide) (by decide),
    fun _ hpc hne hd => effect.cell_of_ne hpc hne hd, effect.history, rfl, rfl⟩

/-- A row that reads `src` answers a state whose result carries the old content of `src`, which the destination then holds
unless it is cell 1 or a derived cell (R134, R142). -/
theorem exec_source_value {i : Instr} {s : State} {pc src dst : Addr} (hi : i ≠ .halt) (hs : i.src = src.val)
    (hd : i.dst = dst.val) (hp : s.pc.val = pc.val) :
    ∃ t, exec i s = .next t ∧ t.result = some (.stepped src dst (s.cell src)) ∧
      (dst ≠ Reg.pc → notDerived dst → t.cell dst = s.cell src) :=
  have effect := State.moved_effect hp src dst
  ⟨_, exec_of_operands hi hs hd hp, effect.answer, effect.cell_dst⟩

/-- Settles O21: the value moved is the derived cell's own, which by the invariant is the arithmetic of A, B, C. -/
theorem readingADerivedCellGivesTheCurrentArithmetic : Obligations.ReadingADerivedCellGivesTheCurrentArithmetic := by
  intro s pc dst hp hderived
  obtain ⟨hsum, hsub, hcmp, htrn⟩ := State.derived_values hderived rfl rfl rfl
  obtain ⟨tsum, esum, rsum, csum⟩ := exec_source_value (i := .movFromSum dst.val) (src := Reg.sum) nofun rfl rfl hp
  obtain ⟨tsub, esub, rsub, csub⟩ := exec_source_value (i := .movFromSub dst.val) (src := Reg.sub) nofun rfl rfl hp
  obtain ⟨tcmp, ecmp, rcmp, ccmp⟩ := exec_source_value (i := .movFromCmp dst.val) (src := Reg.cmp) nofun rfl rfl hp
  obtain ⟨ttrn, etrn, rtrn, ctrn⟩ := exec_source_value (i := .movFromTrn dst.val) (src := Reg.trn) nofun rfl rfl hp
  exact ⟨⟨tsum, _, esum, rsum, hsum, csum, rfl⟩, ⟨tsub, _, esub, rsub, hsub, csub, rfl⟩,
    ⟨tcmp, _, ecmp, rcmp, hcmp, ccmp, rfl⟩, ⟨ttrn, _, etrn, rtrn, htrn, ctrn, rfl⟩⟩

/-! The halted condition. -/

/-- Whether a state is halted depends on its memory only. -/
theorem State.word?_congr {s t : State} (h : t.mem = s.mem) : t.word? = s.word? := by
  have hcell : t.cell = s.cell := congrArg Memory.read h
  simp only [State.word?, State.pcAddr?, State.pc, hcell]

theorem commandStep_of_halted {s : State} (h : s.halted) : commandStep s = .next (s.answer .haltedNoOp) := by
  rw [commandStep, h]; rfl

theorem delayBoundary_mem (s : State) : (delayBoundary s).mem = s.mem := by
  unfold delayBoundary
  split <;> rfl

/-- In the halted condition the run controller's move changes no cell: an iteration stops at (a) (R203). -/
theorem controllerMove_mem_of_halted {s t : State} (hs : s.halted) (h : controllerMove s = .next t) : t.mem = s.mem := by
  unfold controllerMove at h
  split at h
  · split at h
    · cases h; exact delayBoundary_mem s
    · have hloop : loopIteration s = .next (s.stopLoop .halted) := by simp [loopIteration, show s.word? = some 0 from hs]
      cases hloop.symm.trans h
      rfl
  · cases h; rfl

theorem commandToggleBp_mem {addr : Nat} {s t : State} (h : commandToggleBp addr s = .next t) : t.mem = s.mem := by
  rcases commandToggleBp_cases addr s with ⟨_, _, _, e⟩ | ⟨_, e⟩ <;> cases e.symm.trans h <;> rfl

theorem commandRun_mem {s t : State} (h : commandRun s = .next t) : t.mem = s.mem := by
  unfold commandRun at h
  split at h <;> cases h <;> rfl

theorem commandCancel_mem {s t : State} (h : commandCancel s = .next t) : t.mem = s.mem := by
  unfold commandCancel at h
  split at h <;> cases h <;> rfl

theorem commandRead_mem {addr : Nat} {s t : State} (h : commandRead addr s = .next t) : t.mem = s.mem := by
  unfold commandRead at h
  split at h <;> cases h <;> rfl

/-- From a halted state a turn that is neither an undo nor an edit changes no cell (R131). -/
theorem takeTurn_mem_of_halted {turn : Turn} {s t : State} (hs : s.halted) (h : takeTurn turn s = .next t) :
    t.mem = s.mem ∨ turn = .stepBack ∨ (∃ a v, turn = .write a v) ∨ (∃ image, turn = .load image) ∨
      (∃ seed, turn = .resetRegs seed) ∨ ∃ mode program, turn = .resetProg mode program := by
  cases turn with
  | controller => exact .inl (controllerMove_mem_of_halted hs h)
  | step =>
    cases (commandStep_of_halted hs).symm.trans (whenStopped_next h).2
    exact .inl rfl
  | stepBack => exact .inr (.inl rfl)
  | write a v => exact .inr (.inr (.inl ⟨a, v, rfl⟩))
  | load image => exact .inr (.inr (.inr (.inl ⟨image, rfl⟩)))
  | resetRegs seed => exact .inr (.inr (.inr (.inr (.inl ⟨seed, rfl⟩))))
  | resetProg mode program => exact .inr (.inr (.inr (.inr (.inr ⟨mode, program, rfl⟩))))
  | toggleBp addr => exact .inl (commandToggleBp_mem h)
  | run => exact .inl (commandRun_mem h)
  | cancel => exact .inl (commandCancel_mem h)
  | read addr => exact .inl (commandRead_mem h)

/-- Settles O25: HALT only answers, and a turn that changes no cell leaves the halted condition as it is. -/
theorem haltIsAFixedPointLeftOnlyByEditsAndUndo : Obligations.HaltIsAFixedPointLeftOnlyByEditsAndUndo := by
  refine ⟨rfl, fun _ => rfl, fun s pc hp hc => ?_, fun turn s t hs h hnot => ?_⟩
  · have hs : s.halted := State.word?_eq_some.mpr ⟨pc, hp, hc⟩
    exact ⟨commandStep_of_halted hs, (s.word?_answer .haltedNoOp).trans hs⟩
  · exact (takeTurn_mem_of_halted hs h).resolve_left fun hmem => hnot ((State.word?_congr hmem).trans hs)

/-! The history. -/

/-- The word an entry records is the executed one: its halves make it again (R90). -/
theorem ofNat_wordSrc_wordDst (w : Cell) : Cell.ofNat (100 * (wordSrc w).val + (wordDst w).val) = w := by
  have hjoin : 100 * (wordSrc w).val + (wordDst w).val = w.val := joinWord_splitWord w.val
  rw [hjoin]
  exact Fin.ext (Nat.mod_eq_of_lt w.isLt)

/-- Settles O32: an executed word pushes the entry of its move, and a signal is an answer, which leaves the history. -/
theorem oneEntryPerExecutedInstruction : Obligations.OneEntryPerExecutedInstruction := by
  refine ⟨fun s pc w hp hc h0 => ?_, fun s t h hsignal => ?_⟩
  · have hhist := (State.moved_effect hp (wordSrc w) (wordDst w)).history
    rw [ofNat_wordSrc_wordDst] at hhist
    exact ⟨_, wordSrc w, wordDst w, commandStep_of_ne_zero hp hc h0, rfl, rfl, hhist⟩
  · rcases commandStep_cases s with ⟨_, e⟩ | ⟨_, e⟩ | ⟨w, pc, _, _, _, _, e⟩ <;> cases e.symm.trans h
    · rfl
    · rfl
    · simp at hsignal

end Sys2Proof.Machine
end

/-! The history buffer and undo (42_history_and_undo.md): push and pop_last (R161, R163), STEP_BACK (R166), what the other
commands do to the history (R165), and the undo of a run of executed instructions (R164, R168): each of them records an entry
whose restore gives back the memory before it. The obligations O30, O31, O33, O36, O37 and O52 are assembled from these. -/

namespace Sys2Proof.Machine

/-! The buffer's operations. -/

/-- What a push leaves, whether or not it evicts (R161). -/
theorem History.push_eq (h : History) (e : Entry) :
    History.push h e = (if h.length = 100 then h.tail else h) ++ [e] := by
  unfold History.push
  split
  · rw [List.drop_one]
  · rfl

/-- Settles O30: the two branches of a push, and the length each gives. -/
theorem pushDropsTheOldestAtCapacity : Obligations.PushDropsTheOldestAtCapacity := by
  intro h e
  refine ⟨fun hfull => ?_, fun hroom => ?_, fun hbound => ?_⟩
  · rw [History.push_eq, if_pos hfull]
  · rw [History.push_eq, if_neg hroom]
  · rw [History.length_push]
    split <;> omega

/-- Settles O31, from what pop_last answers in each case. -/
theorem popLastTakesTheNewest : Obligations.PopLastTakesTheNewest :=
  fun _ _ => ⟨History.popLast?_eq_some.mpr rfl, History.popLast?_eq_none, beq_iff_eq, rfl⟩

/-- A push to a buffer within its bound keeps the newest 100 entries. -/
theorem History.push_eq_drop {h : History} (hb : h.length ≤ 100) (e : Entry) :
    History.push h e = (h ++ [e]).drop (h.length + 1 - 100) := by
  by_cases hfull : h.length = 100
  · rw [History.push_eq, if_pos hfull, hfull, List.drop_append_of_le_length (by omega), List.drop_one]
  · rw [History.push_eq, if_neg hfull, Nat.sub_eq_zero_of_le (by omega), List.drop_zero]

/-- A run of pushes keeps the newest 100 entries: every entry of the run, where it is no longer than that. -/
theorem History.foldl_push {h : History} (hb : h.length ≤ 100) (es : List Entry) :
    es.foldl History.push h = (h ++ es).drop (h.length + es.length - 100) := by
  induction es using List.reverseRecOn with
  | nil => simp [Nat.sub_eq_zero_of_le hb]
  | append_singleton es e ih =>
    have hlen : ((h ++ es).drop (h.length + es.length - 100)).length =
        h.length + es.length - (h.length + es.length - 100) := by rw [List.length_drop, List.length_append]
    have hdropped : h.length + es.length - 100 + (h.length + es.length - (h.length + es.length - 100) + 1 - 100) =
        h.length + (es.length + 1) - 100 := by omega
    rw [List.foldl_concat, ih, History.push_eq_drop (by omega), hlen,
      ← List.drop_append_of_le_length (by rw [List.length_append]; omega), List.drop_drop, hdropped, List.append_assoc,
      List.length_append, List.length_singleton]

/-! STEP_BACK. -/

theorem commandStepBack_of_append {s : State} {rest : List Entry} {e : Entry} (h : s.hist = rest ++ [e]) :
    commandStepBack s = .next { s with mem := s.mem.restore e, hist := rest, result := some .success } := by
  rw [commandStepBack, History.popLast?_eq_some.mpr h]

theorem commandStepBack_of_nil {s : State} (h : s.hist = []) : commandStepBack s = .next (s.answer .emptyHistory) := by
  rw [commandStepBack, History.popLast?_eq_none.mpr h]

theorem takeTurn_stepBack {s : State} (h : s.running = false) : takeTurn .stepBack s = commandStepBack s :=
  whenStopped_of_stopped h _

/-- Settles O33: the cells are those of the entry's restore, outside cells 4 to 7 where `recompute` changes nothing. -/
theorem stepBackRestoresFromTheNewestEntry : Obligations.StepBackRestoresFromTheNewestEntry := by
  refine ⟨fun s rest e hstopped hhist => ?_, fun s hstopped hhist => ?_⟩
  · refine ⟨_, (takeTurn_stepBack hstopped).trans (commandStepBack_of_append hhist), rfl, rfl, rfl, fun a hd => ?_,
      Memory.derivedOk_restore s.mem e, rfl, rfl, rfl, rfl, rfl, rfl⟩
    obtain ⟨h4, h5, h6, h7⟩ := hd
    exact (s.mem.read_restore e a).trans (derivedCell_of_ne h4 h5 h6 h7)
  · exact (takeTurn_stepBack hstopped).trans (commandStepBack_of_nil hhist)

/-! What the other commands do to the history. -/

/-- A direct edit or reset that answers Ok was issued with the loop stopped, and its state is an edit of the old one. -/
theorem takeTurn_edit_eq_edited {turn : Turn} {s t : State}
    (hedit : (∃ a v, turn = .write a v) ∨ (∃ image, turn = .load image) ∨ (∃ seed, turn = .resetRegs seed) ∨
      ∃ mode program, turn = .resetProg mode program)
    (h : takeTurn turn s = .next t) (hok : t.result = some .ok) : s.running = false ∧ ∃ m, t = s.edited m := by
  rcases hedit with ⟨a, v, rfl⟩ | ⟨image, rfl⟩ | ⟨seed, rfl⟩ | ⟨mode, program, rfl⟩ <;>
    obtain ⟨hstopped, hcommand⟩ := whenStopped_next h <;> refine ⟨hstopped, ?_⟩
  · rcases commandWrite_cases a v s with ⟨_, _, _, _, e⟩ | ⟨_, _, e⟩ | ⟨_, e⟩ <;> cases e.symm.trans hcommand
    · exact ⟨_, rfl⟩
    · cases hok
  · rcases commandLoad_cases image s with ⟨_, _, e⟩ | ⟨_, e⟩ <;> cases e.symm.trans hcommand
    exact ⟨_, rfl⟩
  · rcases commandResetRegs_cases seed s with ⟨_, _, _, e⟩ | ⟨_, e⟩ <;> cases e.symm.trans hcommand
    exact ⟨_, rfl⟩
  · rcases commandResetProg_cases mode program s with ⟨_, _, _, e⟩ | ⟨_, e⟩ <;> cases e.symm.trans hcommand
    exact ⟨_, rfl⟩

theorem commandToggleBp_hist {addr : Nat} {s t : State} (h : commandToggleBp addr s = .next t) : t.hist = s.hist := by
  rcases commandToggleBp_cases addr s with ⟨_, _, _, e⟩ | ⟨_, e⟩ <;> cases e.symm.trans h <;> rfl

theorem commandRun_hist {s t : State} (h : commandRun s = .next t) : t.hist = s.hist := by
  unfold commandRun at h
  split at h <;> cases h <;> rfl

theorem commandCancel_hist {s t : State} (h : commandCancel s = .next t) : t.hist = s.hist := by
  unfold commandCancel at h
  split at h <;> cases h <;> rfl

theorem commandStep_hist {s t : State} (h : commandStep s = .next t) :
    t.hist = s.hist ∨ ∃ e, t.hist = History.push s.hist e := by
  rcases commandStep_cases s with ⟨_, e⟩ | ⟨_, e⟩ | ⟨w, pc, _, _, _, _, e⟩ <;> cases e.symm.trans h
  · exact .inl rfl
  · exact .inl rfl
  · exact .inr ⟨_, rfl⟩

theorem commandStepBack_hist {s t : State} (h : commandStepBack s = .next t) : t.hist = s.hist.dropLast := by
  rcases commandStepBack_cases s with ⟨hnil, e⟩ | ⟨_, rest, happ, e⟩ <;> cases e.symm.trans h
  · rw [State.answer_hist, hnil, List.dropLast_nil]
  · rw [happ, List.dropLast_concat]

/-- Settles O52: an accepted edit leaves the edited state, whose history is empty; the other commands, one by one. -/
theorem directEditsForfeitUndo : Obligations.DirectEditsForfeitUndo := by
  refine ⟨fun turn s t hedit h hok => ?_, fun turn s t hturn h => ?_, fun s t h => ?_, fun s t h => ?_⟩
  · obtain ⟨hstopped, m, rfl⟩ := takeTurn_edit_eq_edited hedit h hok
    exact ⟨s.edited_hist m, s.edited_outLog m,
      (takeTurn_stepBack (s := s.edited m) hstopped).trans (commandStepBack_of_nil (s.edited_hist m))⟩
  · rcases hturn with ⟨a, rfl⟩ | rfl | rfl
    · exact commandToggleBp_hist h
    · exact commandRun_hist h
    · exact commandCancel_hist h
  · refine (commandStep_hist (whenStopped_next h).2).imp_right fun ⟨e, he⟩ => ⟨e, ?_⟩
    rw [he, History.push_eq]
  · exact commandStepBack_hist (whenStopped_next h).2

/-! The entry of an executed instruction restores the memory before it. -/

/-- The derived cells' own content does not matter to what they follow. -/
theorem derivedCell_congr {f g : Addr → Cell} (h : ∀ a, notDerived a → f a = g a) (a : Addr) :
    derivedCell f a = derivedCell g a := by
  unfold derivedCell
  rw [h Reg.a (by decide), h Reg.b (by decide), h Reg.c (by decide)]
  split
  · rfl
  next h4 =>
  split
  · rfl
  next h5 =>
  split
  · rfl
  next h6 =>
  split
  · rfl
  next h7 => exact h a ⟨h4, h5, h6, h7⟩

/-- Restoring from the entry a move recorded undoes the move: the cells a move writes are cell 1 and its destination, which
the entry holds, and cells 4 to 7, which follow A, B, C again (R168). -/
theorem Memory.restore_move {m : Memory} (hwf : m.wf) (hd : m.derivedOk) {pc : Addr} (hp : (m.read Reg.pc).val = pc.val)
    (src dst : Addr) : (m.move src dst).restore (entryOf m pc src dst) = m := by
  refine Memory.ext_of_wf (Memory.wf_restore (Memory.wf_move hwf src dst) _) hwf fun a => ?_
  rw [Memory.read_restore, ← derivedCell_of_derivedOk hd a]
  refine derivedCell_congr (fun b ⟨h4, h5, h6, h7⟩ => ?_) a
  change (if b = Reg.out then m.read Reg.out else if b = dst then m.read dst else if b = Reg.pc then pc.toCell
    else (m.move src dst).read b) = m.read b
  by_cases hout : b = Reg.out
  · rw [if_pos hout, hout]
  by_cases hdst : b = dst
  · rw [if_neg hout, if_pos hdst, hdst]
  by_cases hpc : b = Reg.pc
  · rw [if_neg hout, if_neg hdst, if_pos hpc, hpc]
    exact Fin.ext hp.symm
  · rw [if_neg hout, if_neg hdst, if_neg hpc, Memory.read_move, derivedCell_of_ne h4 h5 h6 h7, Memory.movedCell,
      if_neg hpc, if_neg hdst]

/-- The restores of a run of entries, the newest (the last) first. -/
def Memory.restoreAll (m : Memory) (es : List Entry) : Memory := es.foldr (fun e n => n.restore e) m

@[simp] theorem Memory.restoreAll_nil (m : Memory) : m.restoreAll [] = m := rfl

@[simp] theorem Memory.restoreAll_concat (m : Memory) (es : List Entry) (e : Entry) :
    m.restoreAll (es ++ [e]) = (m.restore e).restoreAll es := by
  simp [Memory.restoreAll]

/-- An executed instruction keeps the memory's part of the invariant and pushes one entry, whose restore gives the memory
before it. -/
theorem Executes.recorded {s t : State} (h : Executes s t) (hwf : s.mem.wf) (hd : s.mem.derivedOk) :
    t.mem.wf ∧ t.mem.derivedOk ∧ ∃ e, t.hist = History.push s.hist e ∧ t.mem.restore e = s.mem := by
  have ⟨w, hw, _, _⟩ := h
  obtain ⟨pc, hp, rfl⟩ := h.eq_moved hw
  exact ⟨Memory.wf_move hwf _ _, Memory.derivedOk_move _ _ _, _, rfl, Memory.restore_move hwf hd hp _ _⟩

/-- `n` executed instructions push `n` entries, whose restores, newest first, give the memory before the first of them. -/
theorem ExecutedSteps.recorded {n : Nat} {s t : State} (h : ExecutedSteps n s t) (hwf : s.mem.wf)
    (hd : s.mem.derivedOk) : t.mem.wf ∧ t.mem.derivedOk ∧
      ∃ es : List Entry, es.length = n ∧ t.hist = es.foldl History.push s.hist ∧ t.mem.restoreAll es = s.mem := by
  induction h with
  | none s => exact ⟨hwf, hd, [], rfl, rfl, rfl⟩
  | more first last ih =>
    obtain ⟨hwf', hd', es, hlen, hhist, hmem⟩ := ih hwf hd
    obtain ⟨hwf'', hd'', e, hpush, hrestore⟩ := last.recorded hwf' hd'
    exact ⟨hwf'', hd'', es ++ [e], by simp [hlen], by simp [hpush, hhist], by simp [hrestore, hmem]⟩

/-! Undo after undo. -/

/-- A run of entries at the end of the history can be undone one after another, with nothing emitted or retracted. -/
theorem undone_of_append {s : State} {rest es : List Entry} (h : s.hist = rest ++ es) :
    ∃ u, Undone es.length s u ∧ u.mem = s.mem.restoreAll es ∧ u.hist = rest ∧ u.outLog = s.outLog := by
  induction es using List.reverseRecOn generalizing s with
  | nil => exact ⟨s, .none s, rfl, by simpa using h, rfl⟩
  | append_singleton es e ih =>
    have hstep := commandStepBack_of_append (h.trans (List.append_assoc rest es [e]).symm)
    obtain ⟨u, hundone, hmem, hhist, hlog⟩ :=
      ih (s := { s with mem := s.mem.restore e, hist := rest ++ es, result := some .success }) rfl
    refine ⟨u, ?_, by rw [hmem, Memory.restoreAll_concat], hhist, hlog⟩
    rw [List.length_append, List.length_singleton]
    exact .more hstep rfl hundone

/-- Settles O36: the `n` recorded entries are all still at the end of the history, since a push keeps the newest 100, and
undoing them restores the memory before the first of them. -/
theorem undoInvertsUpToHundredInstructions : Obligations.UndoInvertsUpToHundredInstructions := by
  intro n s t hinv hsteps hn
  obtain ⟨_, _, es, rfl, hhist, hmem⟩ := hsteps.recorded hinv.memWf hinv.derived
  have hbound : s.hist.length ≤ 100 := hinv.histBound
  rw [History.foldl_push hbound, List.drop_append_of_le_length (by omega)] at hhist
  obtain ⟨u, hundone, humem, huhist, hulog⟩ := undone_of_append hhist
  refine ⟨u, hundone, humem.trans hmem, hulog, ?_⟩
  rw [huhist, List.length_drop]
  omega

/-- Settles O37: after 100 undos of 100 executed instructions no entry is left, whatever the history held before. -/
theorem undoReachesBackExactlyHundredInstructions : Obligations.UndoReachesBackExactlyHundredInstructions := by
  intro r t hinv hsteps
  obtain ⟨u, hundone, hmem, _, hlen⟩ := undoInvertsUpToHundredInstructions 100 r t hinv hsteps le_rfl
  have hempty : u.hist = [] := List.eq_nil_of_length_eq_zero (by omega)
  exact ⟨u, hundone, hmem, hempty, commandStepBack_of_nil hempty⟩

end Sys2Proof.Machine

/-! The direct edits of the memory (43_direct_edit_commands.md): the memory after a WRITE (R180, R182), the turn while the loop
is stopped, and the obligation O44 assembled from these. -/

namespace Sys2Proof.Machine

/-- Outside cells 4 to 7 a WRITE changes its own cell and no other (R180, R182). -/
theorem Memory.read_write_recompute (m : Memory) (a : Addr) (v : Cell) {b : Addr} (hb : notDerived b) :
    (m.write a v).recompute.read b = if b = a then v else m.read b := by
  obtain ⟨h4, h5, h6, h7⟩ := hb
  rw [Memory.read_recompute_of_ne _ h4 h5 h6 h7, Memory.read_write]

/-- An address and a cell value are accepted, and the WRITE is an edit of the memory (R180). -/
theorem commandWrite_val (a : Addr) (v : Cell) (s : State) :
    commandWrite a.val v.val s = .next (s.edited (s.mem.write a v).recompute) := by
  rw [commandWrite, dif_pos v.isLt, addrOf_val]

theorem takeTurn_write {s : State} (h : s.running = false) (a : Addr) (v : Cell) :
    takeTurn (.write a.val v.val) s = .next (s.edited (s.mem.write a v).recompute) :=
  (whenStopped_of_stopped h _).trans (commandWrite_val a v s)

/-- Settles O44: the turn is an edit of the memory, so what is left is its cells, and those of 4 to 7 follow A, B, C because
every accepted WRITE recomputes. -/
theorem writeStoresRecomputesAndClears : Obligations.WriteStoresRecomputesAndClears := by
  intro s a v hstopped
  refine ⟨_, takeTurn_write hstopped a v, fun b hb => ?_, Memory.derivedOk_recompute _, s.edited_frame _⟩
  rw [State.cell_edited]
  exact s.mem.read_write_recompute a v hb

end Sys2Proof.Machine

/-! The run controller (44_run_controller.md): TOGGLE_BP on a program cell (R200), the controller's moves (R203) and CANCEL
(R209), and the obligations O54 and O59 assembled from these. -/

namespace Sys2Proof.Machine

/-! TOGGLE_BP. -/

theorem commandToggleBp_of_ge {a : Addr} (ha : 50 ≤ a.val) (s : State) : commandToggleBp a.val s =
    .next { s with bp := toggleMember s.bp a, result := some (.member (decide (a ∉ s.bp))) } := by
  rcases commandToggleBp_cases a.val s with ⟨b, hab, _, e⟩ | ⟨hout, _⟩
  · obtain rfl : a = b := Fin.ext hab
    exact e
  · omega

theorem mem_toggleMember_self {bp : List Addr} (h : bp.Pairwise (· < ·)) (a : Addr) : a ∈ toggleMember bp a ↔ a ∉ bp := by
  rw [mem_toggleMember h, if_pos rfl]

theorem mem_toggleMember_of_ne {bp : List Addr} (h : bp.Pairwise (· < ·)) {a b : Addr} (hne : b ≠ a) :
    b ∈ toggleMember bp a ↔ b ∈ bp := by
  rw [mem_toggleMember h, if_neg hne]

/-- Toggling a program cell keeps the set a set of program cells (R51 (e)). -/
theorem bpWf_toggleMember {bp : List Addr} (h : bpWf bp) {a : Addr} (ha : 50 ≤ a.val) : bpWf (toggleMember bp a) := by
  obtain ⟨hsorted, hprogram⟩ := h
  refine ⟨toggleMember_sorted hsorted a, fun b hb => ?_⟩
  by_cases hba : b = a
  · subst hba; exact ha
  · exact hprogram b ((mem_toggleMember_of_ne hsorted hba).mp hb)

/-- Settles O54: the turn writes the toggled set and the answer, so what is left is the toggled set's members and form. -/
theorem toggleBreakpointFlipsMembership : Obligations.ToggleBreakpointFlipsMembership := by
  intro s a hwf ha
  have ⟨hsorted, _⟩ := hwf
  exact ⟨_, commandToggleBp_of_ge ha s, rfl, mem_toggleMember_self hsorted a,
    fun _ hne => mem_toggleMember_of_ne hsorted hne, bpWf_toggleMember hwf ha⟩

/-! The controller's moves. -/

theorem takeTurn_controller_of_atDelay {s : State} (hr : s.running = true) (hd : s.atDelay = true) :
    takeTurn .controller s = .next (delayBoundary s) := by
  simp [takeTurn, controllerMove, hr, hd]

theorem takeTurn_controller_of_not_atDelay {s : State} (hr : s.running = true) (hd : s.atDelay = false) :
    takeTurn .controller s = loopIteration s := by
  simp [takeTurn, controllerMove, hr, hd]

/-- At the delay boundary a requested cancel stops the loop (R203 (e), R209). -/
theorem takeTurn_controller_of_cancelRequested {s : State} (hr : s.running = true) (hd : s.atDelay = true)
    (hc : s.cancelRequested = true) : takeTurn .controller s = .next (s.stopLoop .cancelled) := by
  rw [takeTurn_controller_of_atDelay hr hd, delayBoundary, if_pos hc]

/-! One iteration, point by point of R203. -/

theorem loopIteration_of_pcInvalid {s : State} (h : s.pcInvalid) : loopIteration s = .next (s.stopLoop .fault) := by
  rw [loopIteration, State.word?_eq_none.mpr h]

theorem loopIteration_of_halted {s : State} (h : s.halted) : loopIteration s = .next (s.stopLoop .halted) := by
  rw [loopIteration, h]
  exact if_pos rfl

/-- Past (a), an iteration makes the transition STEP makes and goes on to (c). -/
theorem loopIteration_of_step {s u : State} {w : Cell} (hw : s.word? = some w) (h0 : w ≠ 0)
    (hstep : commandStep s = .next u) : loopIteration s = .next (afterLoopStep u) := by
  simp [loopIteration, hw, h0, hstep]

theorem State.atBreakpoint_iff {s : State} : s.atBreakpoint = true ↔ ∃ b ∈ s.bp, b.val = s.pc.val := by
  simp [State.atBreakpoint]

/-- The loop waits for input exactly after a word whose source is cell 12 (R203 (d)). -/
theorem State.readInput_moved_iff (s : State) (pc dst : Addr) (w : Cell) :
    (s.moved pc (wordSrc w) dst).readInput = true ↔ w.val / 100 = 12 := by
  simp only [State.readInput, State.moved_result, beq_iff_eq, Fin.ext_iff]
  rfl

theorem afterLoopStep_of_breakpoint {s : State} (h : ∃ b ∈ s.bp, b.val = s.pc.val) :
    afterLoopStep s = s.stopLoop .breakpoint := by
  rw [afterLoopStep, if_pos (State.atBreakpoint_iff.mpr h)]

theorem afterLoopStep_of_readInput {s : State} (h : ¬ ∃ b ∈ s.bp, b.val = s.pc.val) (hin : s.readInput = true) :
    afterLoopStep s = s.stopLoop .inputWait := by
  rw [afterLoopStep, if_neg (mt State.atBreakpoint_iff.mp h), if_pos hin]

theorem afterLoopStep_of_delay {s : State} (h : ¬ ∃ b ∈ s.bp, b.val = s.pc.val) (hin : ¬ s.readInput = true) :
    afterLoopStep s = { s with atDelay := true } := by
  rw [afterLoopStep, if_neg (mt State.atBreakpoint_iff.mp h), if_neg hin]

/-! CANCEL. -/

/-- The state with a cancel requested, which is all that CANCEL does to a running loop. -/
def State.withCancel (s : State) : State := { s with cancelRequested := true }

@[simp] theorem State.withCancel_running (s : State) : s.withCancel.running = s.running := rfl
@[simp] theorem State.withCancel_atDelay (s : State) : s.withCancel.atDelay = s.atDelay := rfl
@[simp] theorem State.withCancel_cancelRequested (s : State) : s.withCancel.cancelRequested = true := rfl
@[simp] theorem State.word?_withCancel (s : State) : s.withCancel.word? = s.word? := rfl

/-- A stop clears the request, so the state it leaves does not depend on whether one was recorded. -/
@[simp] theorem State.stopLoop_withCancel (s : State) (r : StopReason) : s.withCancel.stopLoop r = s.stopLoop r := rfl

theorem takeTurn_cancel_of_running {s : State} (h : s.running = true) : takeTurn .cancel s = .next s.withCancel :=
  if_pos h

theorem takeTurn_cancel_of_stopped {s : State} (h : s.running = false) : takeTurn .cancel s = .next s :=
  if_neg (Bool.eq_false_iff.mp h)

theorem eq_withCancel_of_takeTurn_cancel {s c : State} (hr : s.running = true) (h : takeTurn .cancel s = .next c) :
    c = s.withCancel := by
  cases (takeTurn_cancel_of_running hr).symm.trans h
  rfl

/-- In a delay entered with a request recorded, the move stops the loop in the memory, history and log the STEP left. -/
theorem takeTurn_controller_of_delay_entered {u : State} (hr : u.running = true) (hc : u.cancelRequested = true) :
    takeTurn .controller { u with atDelay := true } = .next (u.stopLoop .cancelled) :=
  takeTurn_controller_of_cancelRequested (s := { u with atDelay := true }) hr rfl hc

/-- Settles O59: an iteration never reads the request, which its STEP keeps and any stop clears; so the request is seen at
the delay boundary, now or after this iteration. -/
theorem cancelIsSeenAtTheDelayBoundary : Obligations.CancelIsSeenAtTheDelayBoundary := by
  refine ⟨fun _ => takeTurn_cancel_of_running, fun s c hr hd hcancel => ?_, fun s c hr hd hcancel => ?_,
    fun _ => takeTurn_cancel_of_stopped⟩ <;>
    obtain rfl := eq_withCancel_of_takeTurn_cancel hr hcancel
  · rw [takeTurn_controller_of_cancelRequested (s.withCancel_running.trans hr) (s.withCancel_atDelay.trans hd)
      s.withCancel_cancelRequested, State.stopLoop_withCancel]
  · rw [takeTurn_controller_of_not_atDelay (s.withCancel_running.trans hr) (s.withCancel_atDelay.trans hd)]
    refine ⟨fun hinvalid => ?_, fun hhalted => ?_, fun w hw h0 => ?_⟩
    · rw [loopIteration_of_pcInvalid (s := s.withCancel) hinvalid, State.stopLoop_withCancel]
    · rw [loopIteration_of_halted (s.word?_withCancel.trans hhalted), State.stopLoop_withCancel]
    · have hword := s.word?_withCancel.trans hw
      obtain ⟨pc, hp, hc⟩ := State.word?_eq_some.mp hword
      have hstep := commandStep_of_ne_zero hp hc h0
      have hinput := s.withCancel.readInput_moved_iff pc (wordDst w) w
      rw [loopIteration_of_step hword h0 hstep]
      refine ⟨_, hstep, fun hbp => ?_, fun hbp hin => ?_, fun hbp hin => ?_⟩
      · rw [afterLoopStep_of_breakpoint hbp]
      · rw [afterLoopStep_of_readInput hbp (hinput.mpr hin)]
      · rw [afterLoopStep_of_delay hbp (mt hinput.mp hin)]
        exact ⟨_, rfl, rfl, takeTurn_controller_of_delay_entered hr rfl⟩

end Sys2Proof.Machine

/-! The signals (60_exceptions.md): what each command that returns a result leaves behind where that result is a signal
(R220, R226), and the obligation O43 assembled from these. -/

namespace Sys2Proof.Machine

/-- The three signals (R220 to R223), told apart from the answers of a command that did its work. -/
def Result.isSignal (r : Result) : Prop := r = .invalidAddress ∨ r = .emptyHistory ∨ r = .haltedNoOp

/-- Precision (R226): if the command that led from `s` to `t` signalled, `t` is `s` with the signal as its result. -/
def State.precise (s t : State) : Prop := ∀ r, t.result = some r → r.isSignal → t = s.answer r

/-- Whatever a command answers, answering and doing nothing else is precise. -/
theorem State.precise_answer (s : State) (r : Result) : s.precise (s.answer r) := by
  intro r' hr _
  cases hr
  rfl

/-- Precision asks nothing of a command whose result is no signal. -/
theorem State.precise_of_result {s t : State} {r : Result} (ht : t.result = some r) (hr : ¬ r.isSignal) :
    s.precise t := by
  intro r' hr' hsignal
  obtain rfl : r = r' := Option.some.inj (ht.symm.trans hr')
  exact absurd hsignal hr

/-! The results of a command that did its work are no signals. -/

theorem Result.not_isSignal_stepped (src dst : Addr) (v : Cell) : ¬ (Result.stepped src dst v).isSignal := by
  simp [Result.isSignal]

theorem Result.not_isSignal_success : ¬ Result.success.isSignal := by simp [Result.isSignal]

theorem Result.not_isSignal_ok : ¬ Result.ok.isSignal := by simp [Result.isSignal]

theorem Result.not_isSignal_member (inSet : Bool) : ¬ (Result.member inSet).isSignal := by simp [Result.isSignal]

theorem State.precise_moved (s : State) (pc src dst : Addr) : s.precise (s.moved pc src dst) :=
  State.precise_of_result (s.moved_result pc src dst) (Result.not_isSignal_stepped _ _ _)

theorem State.precise_edited (s : State) (m : Memory) : s.precise (s.edited m) :=
  State.precise_of_result (s.edited_result m) Result.not_isSignal_ok

/-! The commands. -/

theorem commandStep_precise {s t : State} (h : commandStep s = .next t) : s.precise t := by
  rcases commandStep_cases s with ⟨_, e⟩ | ⟨_, e⟩ | ⟨_, _, _, _, _, _, e⟩ <;> cases e.symm.trans h
  · exact s.precise_answer .invalidAddress
  · exact s.precise_answer .haltedNoOp
  · exact s.precise_moved _ _ _

theorem commandStepBack_precise {s t : State} (h : commandStepBack s = .next t) : s.precise t := by
  rcases commandStepBack_cases s with ⟨_, e⟩ | ⟨_, _, _, e⟩ <;> cases e.symm.trans h
  · exact s.precise_answer .emptyHistory
  · exact State.precise_of_result rfl Result.not_isSignal_success

theorem commandWrite_precise {addr value : Nat} {s t : State} (h : commandWrite addr value s = .next t) :
    s.precise t := by
  rcases commandWrite_cases addr value s with ⟨_, _, _, _, e⟩ | ⟨_, _, e⟩ | ⟨_, e⟩ <;> cases e.symm.trans h
  · exact s.precise_edited _
  · exact s.precise_answer .invalidAddress

theorem commandLoad_precise {image : List Nat} {s t : State} (h : commandLoad image s = .next t) : s.precise t := by
  rcases commandLoad_cases image s with ⟨_, _, e⟩ | ⟨_, e⟩ <;> cases e.symm.trans h
  exact s.precise_edited _

theorem commandResetRegs_precise {seed : Option (List Nat)} {s t : State} (h : commandResetRegs seed s = .next t) :
    s.precise t := by
  rcases commandResetRegs_cases seed s with ⟨_, _, _, e⟩ | ⟨_, e⟩ <;> cases e.symm.trans h
  exact s.precise_edited _

theorem commandResetProg_precise {mode : ProgMode} {program : Option (List Nat)} {s t : State}
    (h : commandResetProg mode program s = .next t) : s.precise t := by
  rcases commandResetProg_cases mode program s with ⟨_, _, _, e⟩ | ⟨_, e⟩ <;> cases e.symm.trans h
  exact s.precise_edited _

theorem commandToggleBp_precise {addr : Nat} {s t : State} (h : commandToggleBp addr s = .next t) : s.precise t := by
  rcases commandToggleBp_cases addr s with ⟨_, _, _, e⟩ | ⟨_, e⟩ <;> cases e.symm.trans h
  · exact State.precise_of_result rfl (Result.not_isSignal_member _)
  · exact s.precise_answer .invalidAddress

/-- A host read only answers, with the cell or with the signal (R186, R221 (b)). -/
theorem commandRead_eq_answer (addr : Nat) (s : State) : ∃ r, commandRead addr s = .next (s.answer r) := by
  unfold commandRead
  cases addrOf addr with
  | some a => exact ⟨.value (s.cell a), rfl⟩
  | none => exact ⟨.invalidAddress, rfl⟩

theorem commandRead_precise {addr : Nat} {s t : State} (h : commandRead addr s = .next t) : s.precise t := by
  obtain ⟨r, e⟩ := commandRead_eq_answer addr s
  cases e.symm.trans h
  exact s.precise_answer r

/-- Every turn of the host that returns a result is precise (R226). RUN and CANCEL return none: after them the state may still
hold the signal of an earlier command. -/
theorem takeTurn_precise {turn : Turn} {s t : State} (hcontroller : turn ≠ .controller) (hrun : turn ≠ .run)
    (hcancel : turn ≠ .cancel) (h : takeTurn turn s = .next t) : s.precise t := by
  cases turn with
  | controller => exact absurd rfl hcontroller
  | step => exact commandStep_precise (whenStopped_next h).2
  | stepBack => exact commandStepBack_precise (whenStopped_next h).2
  | write addr value => exact commandWrite_precise (whenStopped_next h).2
  | load image => exact commandLoad_precise (whenStopped_next h).2
  | resetRegs seed => exact commandResetRegs_precise (whenStopped_next h).2
  | resetProg mode program => exact commandResetProg_precise (whenStopped_next h).2
  | toggleBp addr => exact commandToggleBp_precise h
  | run => exact absurd rfl hrun
  | cancel => exact absurd rfl hcancel
  | read addr => exact commandRead_precise h

/-- Settles O43: each command either answers, which changes nothing but the result, or returns a result that is no signal. -/
theorem signalsChangeNothing : Obligations.SignalsChangeNothing :=
  fun _ _ _ r hcontroller hrun hcancel h hr hsignal => takeTurn_precise hcontroller hrun hcancel h r hr hsignal

end Sys2Proof.Machine

/-! The creation and the two resets (70_reset_and_hazards.md): the numbers the host supplies as cells (R185), the cells of the
created memory (R50, R250), creation with a stored image, RESET_REGS while the loop is stopped (R252), the created memory got
back by both resets (R254), and the obligations O39 and O51 assembled from these. -/

namespace Sys2Proof.Machine

/-! Numbers supplied by the host. -/

theorem cellsOfLength_map_val {len : Nat} {cs : List Cell} (h : cs.length = len) :
    cellsOfLength len (cs.map Fin.val) = some cs := by
  rw [cellsOfLength, if_pos (by simpa using h), cellsOf_map_val]

/-- One number above 9999 spoils the whole list: it is no cell (R185). -/
theorem cellsOf_eq_none {ns : List Nat} {n : Nat} (hn : n ∈ ns) (h : 9999 < n) : cellsOf ns = none := by
  induction ns with
  | nil => cases hn
  | cons k ns ih =>
    unfold cellsOf
    rcases List.mem_cons.mp hn with rfl | hmem
    · rw [dif_neg (by omega)]
    · rw [ih hmem]
      split <;> rfl

theorem cellsOfLength_eq_none {len : Nat} {ns : List Nat} (h : ns.length ≠ len ∨ ∃ n ∈ ns, 9999 < n) :
    cellsOfLength len ns = none := by
  unfold cellsOfLength
  split
  · next hlen =>
    obtain ⟨n, hn, hlt⟩ := h.resolve_left (not_not_intro hlen)
    exact cellsOf_eq_none hn hlt
  · rfl

/-! The cells of the created memory. -/

/-- A cell of 0 to 49 of the created memory holds its cell of the seed, unless it is one of 4 to 7 (R250, R252). -/
theorem Memory.read_created_seed {seed : List Cell} (h : seed.length = 50) (program : List Cell) {a : Addr}
    (ha : a.val < 50) (hd : notDerived a) : (Memory.created seed program).read a = seed[a.val]'(by omega) := by
  obtain ⟨h4, h5, h6, h7⟩ := hd
  rw [Memory.read_created_low seed program ha, Memory.read_resetRegs_low [] h ha h4 h5 h6 h7]

theorem Memory.read_created_program (seed : List Cell) {program : List Cell} {a : Addr} (ha : 50 ≤ a.val)
    (h : a.val - 50 < program.length) : (Memory.created seed program).read a = program[a.val - 50] :=
  (Memory.read_created_high seed program ha).trans (dif_pos h)

/-- Above the sample program, 56 to 99, the created memory is zero (R250, D10). -/
theorem Memory.read_created_above (seed : List Cell) {program : List Cell} (h : program.length = 6) {a : Addr}
    (ha : 56 ≤ a.val) : (Memory.created seed program).read a = 0 :=
  (Memory.read_created_high seed program (by omega)).trans (dif_neg (by omega))

theorem State.reset_cell (a : Addr) :
    State.reset.cell a = (Memory.created Config.regSeed Config.sampleProgram).read a :=
  congrArg (Memory.read · a) State.reset_mem_created

/-- With the defaults only the counter and the six program cells are listed, every other cell is zero (R50, D8, D10). -/
theorem State.reset_listed : ∀ e ∈ State.reset.mem, e.1 = Reg.pc ∨ 50 ≤ e.1.val := by
  rw [State.reset_mem]
  simp

theorem State.reset_pc : State.reset.pc = 50 := by
  change State.reset.mem.read Reg.pc = 50
  rw [State.reset_mem]
  rfl

/-- Below 50 the default creation leaves every cell but the counter zero, cells 4 to 7 included (R50, D8). -/
theorem State.reset_cell_low {a : Addr} (ha : a.val < 50) (hpc : a ≠ Reg.pc) : State.reset.cell a = 0 := by
  refine Memory.read_of_not_listed fun e he heq => ?_
  rcases State.reset_listed e he with hcounter | hprogram
  · exact hpc (heq.symm.trans hcounter)
  · rw [heq] at hprogram
    omega

/-! Creation with a stored image. -/

theorem commandLoad_given {image : List Cell} (h : image.length = 100) (s : State) :
    commandLoad (image.map Fin.val) s = .next (s.edited (Memory.ofImage image)) := by
  rw [commandLoad, cellsOfLength_map_val h]

theorem commandLoad_refused {image : List Nat} (h : image.length ≠ 100 ∨ ∃ n ∈ image, 9999 < n) (s : State) :
    commandLoad image s = .refused .imageNotAnImage := by
  rw [commandLoad, cellsOfLength_eq_none h]

/-- Settles O39: the default values from the listed memory, the parameters' cells range by range, and a stored image as a LOAD
of the created state. -/
theorem resetHoldsTheCreatedValues : Obligations.ResetHoldsTheCreatedValues := by
  refine ⟨State.reset_pc, fun _ => State.reset_cell_low, fun a h ha => ?_, fun a ha => ?_, rfl, rfl, rfl, rfl, rfl,
    fun seed program hs hp => ⟨fun a => Memory.read_created_seed hs program, fun a hlt ha => ?_,
      fun a => Memory.read_created_above seed hp, Memory.derivedOk_created seed program, rfl, rfl, rfl, rfl, rfl,
      fun image h => ⟨_, commandLoad_given h _, fun a ⟨h4, h5, h6, h7⟩ => ?_, Memory.derivedOk_recompute _,
        rfl, rfl, rfl, rfl⟩,
      fun ns h => commandLoad_refused h _⟩⟩
  · rw [State.reset_cell, Memory.read_created_program _ ha h]
  · rw [State.reset_cell, Memory.read_created_above _ sampleProgram_length ha]
  · exact Memory.read_created_program seed ha (by omega)
  · rw [State.cell_edited, Memory.read_ofImage h h4 h5 h6 h7]

/-! RESET_REGS while the loop is stopped. -/

/-- Fifty given cells are accepted as the seed, and the reset is an edit of the memory (R8, R252). -/
theorem commandResetRegs_given {seed : List Cell} (h : seed.length = 50) (s : State) :
    commandResetRegs (some (seed.map Fin.val)) s = .next (s.edited (s.mem.resetRegs seed)) := by
  have hc : cellsOrDefault Config.regSeed Config.regCount (some (seed.map Fin.val)) = some seed :=
    cellsOrDefault_map_val _ h
  rw [commandResetRegs, hc]

/-- Giving no seed is giving the default one (R8, R252). -/
theorem commandResetRegs_default (s : State) :
    commandResetRegs none s = commandResetRegs (some (Config.regSeed.map Fin.val)) s :=
  (commandResetRegs_given regSeed_length s).symm

theorem takeTurn_resetRegs {s : State} (h : s.running = false) {seed : List Cell} (hs : seed.length = 50) :
    takeTurn (.resetRegs (some (seed.map Fin.val))) s = .next (s.edited (s.mem.resetRegs seed)) :=
  (whenStopped_of_stopped h _).trans (commandResetRegs_given hs s)

theorem takeTurn_resetRegs_default (s : State) :
    takeTurn (.resetRegs none) s = takeTurn (.resetRegs (some (Config.regSeed.map Fin.val))) s :=
  congrArg (whenStopped s) (funext commandResetRegs_default)

/-! Both resets. -/

/-- Below 50 the register reset leaves nothing of the memory it starts from (R252). -/
theorem Memory.read_resetRegs_low_congr (m n : Memory) {seed : List Cell} (h : seed.length = 50) {a : Addr}
    (ha : a.val < 50) : (m.resetRegs seed).read a = (n.resetRegs seed).read a := by
  refine Memory.read_recompute_congr (fun b hb => ?_) ha
  have hreach : 0 ≤ b.val ∧ b.val - 0 < seed.length := by omega
  rw [Memory.read_writeRange, Memory.read_writeRange, dif_pos hreach, dif_pos hreach]

/-- The program reset fixes cells 50 to 99 and the register reset the others, so together they make the created memory of
every memory (R254). -/
theorem Memory.resetRegs_resetProg {m : Memory} (hwf : m.wf) {seed : List Cell} (h : seed.length = 50)
    (program : List Cell) : (m.resetProg program .sample).resetRegs seed = Memory.created seed program := by
  refine Memory.ext_of_wf (Memory.wf_resetRegs (Memory.wf_resetProg hwf program .sample) seed)
    (Memory.wf_created seed program) fun a => ?_
  by_cases ha : a.val < 50
  · rw [Memory.read_created_low seed program ha]
    exact Memory.read_resetRegs_low_congr _ _ h ha
  · have hhigh : 50 ≤ a.val := Nat.not_lt.mp ha
    rw [Memory.read_resetRegs_high _ h hhigh, Memory.read_resetProg_high m program .sample hhigh,
      Memory.read_created_high seed program hhigh]

/-- Settles O51: the two turns are edits of the memory, which end in the created one; no parameters are the default ones. -/
theorem bothResetsGiveTheCreatedMemory : Obligations.BothResetsGiveTheCreatedMemory := by
  intro s hstopped hwf
  have given : ∀ seed program : List Cell, seed.length = 50 → program.length = 6 → ∃ t u,
      takeTurn (.resetProg .sample (some (program.map Fin.val))) s = .next t ∧
      takeTurn (.resetRegs (some (seed.map Fin.val))) t = .next u ∧ u.mem = (State.created seed program).mem ∧
      u.hist = [] ∧ u.outLog = s.outLog ∧ u.bp = s.bp ∧ u.running = false :=
    fun seed program hs hp => ⟨_, _, takeTurn_resetProg hstopped .sample hp,
      takeTurn_resetRegs (s := s.edited _) hstopped hs, Memory.resetRegs_resetProg hwf hs program, rfl, rfl, rfl, hstopped⟩
  refine ⟨?_, given⟩
  obtain ⟨t, u, hprog, hregs, hu⟩ := given Config.regSeed Config.sampleProgram regSeed_length sampleProgram_length
  exact ⟨t, u, (takeTurn_resetProg_default .sample s).trans hprog, (takeTurn_resetRegs_default t).trans hregs, hu⟩

end Sys2Proof.Machine

/-! The rows of the opcode table (30_encoding.md, 40_decoder_and_derived_unit.md section 1): every well-formed instruction is the
row its own word decodes to (R95, R101), every cell value is such a word, and which of its rows a word is read as does not
matter. The obligations O1, O2, O4, O5 and O6 are assembled from these. -/

namespace Sys2Proof

/-! The row of each class of operands. -/

/-- Off the diagonal and off the word of STOP, the class of the destination decides first (entry 15). -/
theorem classify_of_ne {s d : Nat} (hne : s ≠ d) (hstop : ¬ (s = 0 ∧ d = 1)) : classify s d = classifyDst s d := by
  rw [classify, if_neg hstop, if_neg (by omega), if_neg hne]

theorem plainDst_iff {d : Nat} : plainDst d = true ↔ d = 9 ∨ d = 10 ∨ (12 ≤ d ∧ d ≤ 49) := by
  simp [plainDst, or_assoc]

theorem plainSrc_iff {s : Nat} : plainSrc s = true ↔ s ≠ 0 ∧ s ≠ 1 ∧ ¬ (4 ≤ s ∧ s ≤ 7) ∧ s ≠ 12 := by
  simp [plainSrc, and_assoc]
  omega

/-- A plain destination leaves the choice to the class of the source (R94). -/
theorem classifyDst_of_plainDst (s : Nat) {d : Nat} (hd : plainDst d = true) : classifyDst s d = classifySrc s d := by
  rw [plainDst_iff] at hd
  unfold classifyDst
  split
  case h_11 => exact if_neg (by omega)
  all_goals omega

theorem classifyDst_of_rom (s : Nat) {d : Nat} (hd : 50 ≤ d) : classifyDst s d = .movToRom s d := by
  unfold classifyDst
  split
  case h_11 => exact if_pos hd
  all_goals omega

theorem classifySrc_of_plainSrc {s : Nat} (d : Nat) (hs : plainSrc s = true) : classifySrc s d = .mov s d := by
  rw [plainSrc_iff] at hs
  unfold classifySrc
  split
  case h_8 => rfl
  all_goals omega

/-- A row for a class of sources is picked where its destination is plain and is not the source itself. -/
theorem classify_of_plainDst {s d : Nat} (hd : plainDst d = true) (hne : s ≠ d) : classify s d = classifySrc s d := by
  rw [classify_of_ne hne, classifyDst_of_plainDst s hd]
  rw [plainDst_iff] at hd
  omega

/-! Decoding what was encoded. -/

theorem Instr.wellFormed_iff {i : Instr} : i.wellFormed = true ↔ i.inRow = true ∧ i.canonical = true := by
  simp [Instr.wellFormed]

/-- The canonical condition of a row is that `classify` picks it for its own operands (entry 15). -/
theorem classify_of_wellFormed {i : Instr} (h : i.wellFormed = true) (hne : i ≠ .halt) : classify i.src i.dst = i := by
  obtain ⟨hrow, hcan⟩ := Instr.wellFormed_iff.mp h
  cases i with
  | halt => exact absurd rfl hne
  | stop => rfl
  | nop => rfl
  | movSame x =>
    simp only [Instr.inRow, Instr.canonical, Bool.and_eq_true, decide_eq_true_eq] at hrow hcan
    rw [Instr.src, Instr.dst, classify, if_neg (by omega), if_neg (by omega), if_pos rfl]
  | mov s d =>
    simp only [Instr.canonical, Bool.and_eq_true, decide_eq_true_eq] at hcan
    obtain ⟨⟨hs, hd⟩, hne⟩ := hcan
    rw [Instr.src, Instr.dst, classify_of_plainDst hd hne, classifySrc_of_plainSrc d hs]
  | movToRom s d =>
    simp only [Instr.inRow, Instr.canonical, Bool.and_eq_true, decide_eq_true_eq] at hrow hcan
    rw [Instr.src, Instr.dst, classify_of_ne hcan (by omega), classifyDst_of_rom s (by omega)]
  | movToHalt s | movToPc s | movToA s | movToB s | movToSum s | movToSub s | movToCmp s | movToTrn s | movToC s
  | movToOut s =>
    simp only [Instr.inRow, Instr.canonical, Bool.and_eq_true, decide_eq_true_eq] at hrow hcan
    exact classify_of_ne (by simp only [Instr.src, Instr.dst]; omega) (by simp only [Instr.src, Instr.dst]; omega)
  | movFromHalt d | movFromPc d | movFromSum d | movFromSub d | movFromCmp d | movFromTrn d =>
    have hd := plainDst_iff.mp hcan
    exact classify_of_plainDst hcan (by simp only [Instr.src, Instr.dst]; omega)
  | movFromIn d =>
    simp only [Instr.canonical, Bool.and_eq_true, decide_eq_true_eq] at hcan
    obtain ⟨hd, hin⟩ := hcan
    exact classify_of_plainDst hd (Ne.symm hin)

/-- Only HALT has the word 0: no other row admits both operands 0 (R92). -/
theorem encode_ne_zero {i : Instr} (hrow : i.inRow = true) (hne : i ≠ .halt) : encode i ≠ 0 := by
  cases i with
  | halt => exact absurd rfl hne
  | mov s d | movToHalt s | movFromHalt d | movToRom s d | movSame x =>
    simp only [Instr.inRow, Bool.and_eq_true, decide_eq_true_eq] at hrow
    simp only [encode, joinWord, Instr.src, Instr.dst]
    omega
  | _ =>
    simp only [encode, joinWord, Instr.src, Instr.dst]
    omega

theorem decode_of_lt {w : Nat} (h : w < 10000) : decode w = .ok (decodeCell ⟨w, h⟩) := dif_pos h

/-- Every row's word decodes to an instruction with the row's own operands. -/
theorem decodeCell_encode_operands {i : Instr} {w : Cell} (hrow : i.inRow = true) (hw : w.val = encode i) :
    (decodeCell w).src = i.src ∧ (decodeCell w).dst = i.dst := by
  obtain ⟨_, hsrc, hdst⟩ := Laws.encodesOperands i hrow
  obtain ⟨hs, hd⟩ := decodeCell_operands w
  rw [hs, hd, hw]
  exact ⟨hsrc, hdst⟩

/-- A row other than HALT never has the word HALT is decoded from. -/
theorem decodeCell_ne_halt_of_encode {i : Instr} {w : Cell} (hrow : i.inRow = true) (hne : i ≠ .halt)
    (hw : w.val = encode i) : decodeCell w ≠ .halt := by
  intro h
  rw [decodeCell_eq_halt.mp h] at hw
  exact encode_ne_zero hrow hne hw.symm

/-- Settles O1: HALT is decoded from word 0; any other word splits into the row's operands, and for these `classify` picks
the canonical row. -/
theorem decodeOfEncodeGivesTheInstruction : Obligations.DecodeOfEncodeGivesTheInstruction := by
  intro i h
  by_cases hne : i = .halt
  · subst hne; rfl
  obtain ⟨hrow, _⟩ := Instr.wellFormed_iff.mp h
  obtain ⟨hlt, hsrc, hdst⟩ := Laws.encodesOperands i hrow
  have hword : (⟨encode i, hlt⟩ : Cell) ≠ 0 := fun e => encode_ne_zero hrow hne (congrArg Fin.val e)
  rw [decode_of_lt hlt, decodeCell_of_ne_zero hword, hsrc, hdst, classify_of_wellFormed h hne]

/-! Every cell value is a word. -/

theorem classifySrc_wellFormed {s d : Nat} (hs : s < 100) (hd : plainDst d = true) (hne : s ≠ d) :
    (classifySrc s d).wellFormed = true := by
  have hd' := plainDst_iff.mp hd
  unfold classifySrc
  split
  case h_7 =>
    simp only [Instr.wellFormed, Instr.inRow, Instr.canonical, Bool.and_eq_true, decide_eq_true_eq]
    exact ⟨by omega, hd, Ne.symm hne⟩
  case h_8 h0 h1 h4 h5 h6 h7 h12 =>
    have hplain : s ≠ 0 ∧ s ≠ 1 ∧ s ≠ 4 ∧ s ≠ 5 ∧ s ≠ 6 ∧ s ≠ 7 ∧ s ≠ 12 := ⟨h0, h1, h4, h5, h6, h7, h12⟩
    simp only [Instr.wellFormed, Instr.inRow, Instr.canonical, Bool.and_eq_true, decide_eq_true_eq]
    exact ⟨by omega, ⟨plainSrc_iff.mpr (by omega), hd⟩, hne⟩
  all_goals
    simp only [Instr.wellFormed, Instr.inRow, Instr.canonical, Bool.and_eq_true, decide_eq_true_eq]
    exact ⟨by omega, hd⟩

theorem classifyDst_wellFormed {s d : Nat} (hs : s < 100) (hd : d < 100) (hne : s ≠ d) (hstop : ¬ (s = 0 ∧ d = 1)) :
    (classifyDst s d).wellFormed = true := by
  unfold classifyDst
  split
  case h_11 h0 h1 h2 h3 h4 h5 h6 h7 h8 h11 =>
    have hplain : d ≠ 0 ∧ d ≠ 1 ∧ d ≠ 2 ∧ d ≠ 3 ∧ d ≠ 4 ∧ d ≠ 5 ∧ d ≠ 6 ∧ d ≠ 7 ∧ d ≠ 8 ∧ d ≠ 11 :=
      ⟨h0, h1, h2, h3, h4, h5, h6, h7, h8, h11⟩
    split
    · simp only [Instr.wellFormed, Instr.inRow, Instr.canonical, Bool.and_eq_true, decide_eq_true_eq]
      omega
    · exact classifySrc_wellFormed hs (plainDst_iff.mpr (by omega)) hne
  all_goals
    simp only [Instr.wellFormed, Instr.inRow, Instr.canonical, Bool.and_eq_true, decide_eq_true_eq, and_true]
    omega

/-- The row picked for two addresses that are not both 0 is well formed. -/
theorem classify_wellFormed {s d : Nat} (hs : s < 100) (hd : d < 100) (h0 : ¬ (s = 0 ∧ d = 0)) :
    (classify s d).wellFormed = true := by
  unfold classify
  split
  · rfl
  next hstop =>
  split
  · rfl
  next hnop =>
  split
  next hsame =>
    simp only [Instr.wellFormed, Instr.inRow, Instr.canonical, Bool.and_eq_true, decide_eq_true_eq]
    omega
  next hne => exact classifyDst_wellFormed hs hd hne hstop

theorem decodeCell_wellFormed (w : Cell) : (decodeCell w).wellFormed = true := by
  by_cases hw : w = 0
  · subst hw; rfl
  · have hne : w.val ≠ 0 := Fin.val_ne_zero_iff.mpr hw
    rw [decodeCell_of_ne_zero hw]
    exact classify_wellFormed (by omega) (by omega) (by omega)

theorem encode_decodeCell (w : Cell) : encode (decodeCell w) = w.val := by
  obtain ⟨hsrc, hdst⟩ := decodeCell_operands w
  rw [encode, hsrc, hdst]
  exact joinWord_splitWord w.val

/-- Settles O2: the picked row is well formed and carries the two halves of the word, which make the word again. -/
theorem everyCellValueIsAWellFormedInstruction : Obligations.EveryCellValueIsAWellFormedInstruction :=
  fun w => ⟨decode_of_lt w.isLt, decodeCell_wellFormed w, encode_decodeCell w, decodeCell_operands w⟩

/-- Settles O4: the decoder's own bound, and the bound of the upper half. -/
theorem numbersNoCellHoldsAreRejectedByName : Obligations.NumbersNoCellHoldsAreRejectedByName := by
  intro w hw
  have hsrc : ¬ (splitWord w).1 ≤ 99 := fun h => absurd ((splitWord_fst_le_iff w).mp h) (Nat.not_le.mpr hw)
  exact ⟨dif_neg (by omega), Nat.not_le.mp hsrc⟩

/-- A number is decoded to any well-formed instruction it is the word of. -/
theorem decode_of_encode_eq {i : Instr} {w : Nat} (h : i.wellFormed = true) (hw : encode i = w) : decode w = .ok i :=
  hw ▸ decodeOfEncodeGivesTheInstruction i h

/-- Settles O5: each number is the word of the instruction written beside it, which is well formed, so O1 applies. -/
theorem writtenOutWordsDecodeToTheirInstructions : Obligations.WrittenOutWordsDecodeToTheirInstructions := by
  refine ⟨?_, ?_, ?_, ?_, ?_, ?_, ?_, ?_, ?_, ?_, ?_, ?_, ?_, ?_, ?_, ?_, ?_, ?_, ?_, ?_, ?_, ?_, ?_⟩ <;>
    exact decode_of_encode_eq rfl rfl

end Sys2Proof

namespace Sys2Proof.Machine

/-- Settles O6: both rows are MOVs, or both HALT, and a MOV means the move between its operands, which both rows share. -/
theorem rowOfAWordDoesNotChangeItsMeaning : Obligations.RowOfAWordDoesNotChangeItsMeaning := by
  intro i w s hrow hw
  by_cases hne : i = .halt
  · subst hne
    have hzero : w = 0 := Fin.ext hw
    rw [hzero, decodeCell_zero]
  · obtain ⟨hsrc, hdst⟩ := decodeCell_encode_operands hrow hw
    rw [exec_eq_runMove hne, exec_eq_runMove (decodeCell_ne_halt_of_encode hrow hne hw), hsrc, hdst]

end Sys2Proof.Machine

/-! The transitions of the machine (R12), each turn's next states said once, and what follows from them: the state invariants
are kept (R42, R51), the log grows by instructions only (R47), the breakpoint set changes by TOGGLE_BP only (R48), and a counter
above 99 is left by edits and undo only (R132). The obligations O26, O38, O40, O41, O42 and O56 are assembled from these. -/

namespace Sys2Proof.Machine

/-! What a turn can do. -/

/-- The next states of each turn. `takeTurn_transition` ties it to `takeTurn`. -/
inductive Transition : Turn → State → State → Prop where
  /-- RUN while running, CANCEL and the controller's move while stopped (R202, R209). -/
  | idle {turn : Turn} {s : State} : Transition turn s s
  /-- A signal or a host read (R186, R226). -/
  | answered {turn : Turn} {s : State} (r : Result) : Transition turn s (s.answer r)
  /-- STEP at a word other than 0 (R130). -/
  | executed {s : State} {w : Cell} {pc : Addr} (hw : s.word? = some w) (h0 : w ≠ 0) (hp : s.pc.val = pc.val) :
      Transition .step s (s.moved pc (wordSrc w) (wordDst w))
  /-- STEP_BACK with an entry to restore from (R166). -/
  | undone {s : State} {e : Entry} {rest : List Entry} (hhist : s.hist = rest ++ [e]) :
      Transition .stepBack s { s with mem := s.mem.restore e, hist := rest, result := some .success }
  /-- WRITE of a cell value to an address (R180). -/
  | wrote {s : State} (a : Addr) (v : Cell) : Transition (.write a.val v.val) s (s.edited (s.mem.write a v).recompute)
  /-- LOAD (R184). -/
  | loaded {s : State} (image : List Nat) (cells : List Cell) :
      Transition (.load image) s (s.edited (Memory.ofImage cells))
  /-- RESET_REGS (R252). -/
  | registersReset {s : State} (seed : Option (List Nat)) (cells : List Cell) :
      Transition (.resetRegs seed) s (s.edited (s.mem.resetRegs cells))
  /-- RESET_PROG (R253). -/
  | programReset {s : State} (mode : ProgMode) (program : Option (List Nat)) (cells : List Cell) :
      Transition (.resetProg mode program) s (s.edited (s.mem.resetProg cells mode))
  /-- TOGGLE_BP of a program cell (R200). -/
  | toggled {s : State} {a : Addr} (ha : 50 ≤ a.val) : Transition (.toggleBp a.val) s
      { s with bp := toggleMember s.bp a, result := some (.member (decide (a ∉ s.bp))) }
  /-- RUN while stopped (R202). -/
  | started {s : State} : Transition .run s { s with running := true, atDelay := false, cancelRequested := false }
  /-- CANCEL while running (R209). -/
  | cancelled {s : State} (hr : s.running = true) : Transition .cancel s s.withCancel
  /-- The controller's move stops the loop without a STEP (R203 (a), (e)). -/
  | stopped {s : State} (reason : StopReason) : Transition .controller s (s.stopLoop reason)
  /-- The controller's move ends the delay (R203 (e)). -/
  | delayEnded {s : State} (hr : s.running = true) : Transition .controller s { s with atDelay := false }
  /-- The controller's move is an iteration that makes a STEP (R203 (b) to (d)). -/
  | iterated {s : State} {w : Cell} {pc : Addr} (hr : s.running = true) (hd : s.atDelay = false)
      (hw : s.word? = some w) (h0 : w ≠ 0) (hp : s.pc.val = pc.val) :
      Transition .controller s (afterLoopStep (s.moved pc (wordSrc w) (wordDst w)))

theorem controllerMove_transition {s t : State} (h : controllerMove s = .next t) : Transition .controller s t := by
  unfold controllerMove at h
  split at h
  next hr =>
    split at h
    · cases h
      unfold delayBoundary
      split
      · exact .stopped _
      · exact .delayEnded hr
    next hd =>
      rcases loopIteration_cases s with ⟨_, e⟩ | ⟨_, e⟩ | ⟨w, pc, hw, h0, hp, _, e⟩ <;> cases e.symm.trans h
      · exact .stopped _
      · exact .stopped _
      · exact .iterated hr (Bool.eq_false_iff.mpr hd) hw h0 hp
  · cases h; exact .idle

theorem commandStep_transition {s t : State} (h : commandStep s = .next t) : Transition .step s t := by
  rcases commandStep_cases s with ⟨_, e⟩ | ⟨_, e⟩ | ⟨w, pc, hw, h0, hp, _, e⟩ <;> cases e.symm.trans h
  · exact .answered _
  · exact .answered _
  · exact .executed hw h0 hp

theorem commandStepBack_transition {s t : State} (h : commandStepBack s = .next t) : Transition .stepBack s t := by
  rcases commandStepBack_cases s with ⟨_, e⟩ | ⟨_, _, hhist, e⟩ <;> cases e.symm.trans h
  · exact .answered _
  · exact .undone hhist

theorem commandWrite_transition {addr value : Nat} {s t : State} (h : commandWrite addr value s = .next t) :
    Transition (.write addr value) s t := by
  rcases commandWrite_cases addr value s with ⟨a, v, rfl, rfl, e⟩ | ⟨_, _, e⟩ | ⟨_, e⟩ <;> cases e.symm.trans h
  · exact .wrote a v
  · exact .answered _

theorem commandLoad_transition {image : List Nat} {s t : State} (h : commandLoad image s = .next t) :
    Transition (.load image) s t := by
  rcases commandLoad_cases image s with ⟨cells, _, e⟩ | ⟨_, e⟩ <;> cases e.symm.trans h
  exact .loaded image cells

theorem commandResetRegs_transition {seed : Option (List Nat)} {s t : State} (h : commandResetRegs seed s = .next t) :
    Transition (.resetRegs seed) s t := by
  rcases commandResetRegs_cases seed s with ⟨cells, _, _, e⟩ | ⟨_, e⟩ <;> cases e.symm.trans h
  exact .registersReset seed cells

theorem commandResetProg_transition {mode : ProgMode} {program : Option (List Nat)} {s t : State}
    (h : commandResetProg mode program s = .next t) : Transition (.resetProg mode program) s t := by
  rcases commandResetProg_cases mode program s with ⟨cells, _, _, e⟩ | ⟨_, e⟩ <;> cases e.symm.trans h
  exact .programReset mode program cells

theorem commandToggleBp_transition {addr : Nat} {s t : State} (h : commandToggleBp addr s = .next t) :
    Transition (.toggleBp addr) s t := by
  rcases commandToggleBp_cases addr s with ⟨a, rfl, ha, e⟩ | ⟨_, e⟩ <;> cases e.symm.trans h
  · exact .toggled ha
  · exact .answered _

theorem commandRun_transition {s t : State} (h : commandRun s = .next t) : Transition .run s t := by
  unfold commandRun at h
  split at h <;> cases h
  · exact .idle
  · exact .started

theorem commandCancel_transition {s t : State} (h : commandCancel s = .next t) : Transition .cancel s t := by
  unfold commandCancel at h
  split at h
  next hr => cases h; exact .cancelled hr
  next => cases h; exact .idle

theorem commandRead_transition {addr : Nat} {s t : State} (h : commandRead addr s = .next t) :
    Transition (.read addr) s t := by
  obtain ⟨r, e⟩ := commandRead_eq_answer addr s
  cases e.symm.trans h
  exact .answered r

/-- All that a turn can do (R12). -/
theorem takeTurn_transition {turn : Turn} {s t : State} (h : takeTurn turn s = .next t) : Transition turn s t := by
  cases turn with
  | controller => exact controllerMove_transition h
  | step => exact commandStep_transition (whenStopped_next h).2
  | stepBack => exact commandStepBack_transition (whenStopped_next h).2
  | write addr value => exact commandWrite_transition (whenStopped_next h).2
  | load image => exact commandLoad_transition (whenStopped_next h).2
  | resetRegs seed => exact commandResetRegs_transition (whenStopped_next h).2
  | resetProg mode program => exact commandResetProg_transition (whenStopped_next h).2
  | toggleBp addr => exact commandToggleBp_transition h
  | run => exact commandRun_transition h
  | cancel => exact commandCancel_transition h
  | read addr => exact commandRead_transition h

/-- The state in which the turn taken is taken: the schedule less its head, if it has one (entry 11). -/
def State.afterTaking (s : State) : State := { s with schedule := s.schedule.tail }

/-- A step takes the turn taken, in the state that is left once it is taken from the schedule. -/
theorem step_eq_takeTurn (s : State) : step s = takeTurn s.turnTaken s.afterTaking := by
  unfold step State.turnTaken State.afterTaking
  cases hs : s.schedule with
  | nil =>
    change takeTurn s.defaultTurn s = takeTurn s.defaultTurn { s with schedule := [] }
    rw [← hs]
  | cons turn rest => rfl

/-- All that a step can do (R12). -/
theorem step_transition {s t : State} (h : step s = .next t) : Transition s.turnTaken s.afterTaking t :=
  takeTurn_transition ((step_eq_takeTurn s).symm.trans h)

/-! What points (c) and (d) of the run loop leave alone. -/

@[simp] theorem afterLoopStep_mem (s : State) : (afterLoopStep s).mem = s.mem := by
  rcases afterLoopStep_cases s with ⟨_, e⟩ | ⟨_, _, e⟩ | ⟨_, _, e⟩ <;> rw [e] <;> rfl

@[simp] theorem afterLoopStep_outLog (s : State) : (afterLoopStep s).outLog = s.outLog := by
  rcases afterLoopStep_cases s with ⟨_, e⟩ | ⟨_, _, e⟩ | ⟨_, _, e⟩ <;> rw [e] <;> rfl

@[simp] theorem afterLoopStep_bp (s : State) : (afterLoopStep s).bp = s.bp := by
  rcases afterLoopStep_cases s with ⟨_, e⟩ | ⟨_, _, e⟩ | ⟨_, _, e⟩ <;> rw [e] <;> rfl

@[simp] theorem afterLoopStep_result (s : State) : (afterLoopStep s).result = s.result := by
  rcases afterLoopStep_cases s with ⟨_, e⟩ | ⟨_, _, e⟩ | ⟨_, _, e⟩ <;> rw [e] <;> rfl

@[simp] theorem cell_afterLoopStep (s : State) (a : Addr) : (afterLoopStep s).cell a = s.cell a :=
  congrArg (Memory.read · a) (afterLoopStep_mem s)

/-! The invariants (R51). -/

theorem State.Inv.answer {s : State} (h : s.Inv) (r : Result) : (s.answer r).Inv :=
  ⟨h.memWf, h.derived, h.histBound, h.histEntries, h.bpSet, h.loopStopped⟩

/-- The recorded entry is one R51 (d) allows, because the executed word is not 0. -/
theorem State.Inv.moved {s : State} (h : s.Inv) {pc : Addr} {w : Cell} (hp : s.pc.val = pc.val) (h0 : w ≠ 0) :
    (s.moved pc (wordSrc w) (wordDst w)).Inv where
  memWf := Memory.wf_move h.memWf _ _
  derived := Memory.derivedOk_move _ _ _
  histBound := History.push_bound h.histBound _
  histEntries := by
    have hne : ¬ ((wordSrc w).val = 0 ∧ (wordDst w).val = 0) := by
      have hw : w.val ≠ 0 := Fin.val_ne_zero_iff.mpr h0
      simp only [wordSrc, wordDst]
      omega
    intro e he
    rcases History.mem_push he with hold | rfl
    · exact h.histEntries e hold
    · exact entryOf_wf hp hne
  bpSet := h.bpSet
  loopStopped := h.loopStopped

theorem State.Inv.undone {s : State} (h : s.Inv) {e : Entry} {rest : List Entry} (hhist : s.hist = rest ++ [e]) :
    State.Inv { s with mem := s.mem.restore e, hist := rest, result := some .success } where
  memWf := Memory.wf_restore h.memWf e
  derived := Memory.derivedOk_restore s.mem e
  histBound := by
    have hlen := h.histBound
    rw [hhist, List.length_append] at hlen
    exact Nat.le_of_add_right_le hlen
  histEntries := fun x hx => h.histEntries x (hhist ▸ List.mem_append_left [e] hx)
  bpSet := h.bpSet
  loopStopped := h.loopStopped

/-- An edit keeps the invariants where its memory is canonical and recomputed: it empties the history (R165). -/
theorem State.Inv.edited {s : State} (h : s.Inv) {m : Memory} (hwf : m.wf) (hd : m.derivedOk) : (s.edited m).Inv :=
  ⟨hwf, hd, Nat.zero_le _, nofun, h.bpSet, h.loopStopped⟩

theorem State.Inv.toggled {s : State} (h : s.Inv) {a : Addr} (ha : 50 ≤ a.val) :
    State.Inv { s with bp := toggleMember s.bp a, result := some (.member (decide (a ∉ s.bp))) } :=
  ⟨h.memWf, h.derived, h.histBound, h.histEntries, bpWf_toggleMember h.bpSet ha, h.loopStopped⟩

/-- The loop's own fields are constrained only while it is stopped, and a stop clears them. -/
theorem State.Inv.stopLoop {s : State} (h : s.Inv) (reason : StopReason) : (s.stopLoop reason).Inv :=
  ⟨h.memWf, h.derived, h.histBound, h.histEntries, h.bpSet, fun _ => ⟨rfl, rfl⟩⟩

/-- While the loop runs, its own fields may be anything. -/
theorem State.Inv.looping {s : State} (h : s.Inv) (atDelay cancelRequested : Bool) :
    State.Inv { s with running := true, atDelay := atDelay, cancelRequested := cancelRequested } :=
  ⟨h.memWf, h.derived, h.histBound, h.histEntries, h.bpSet, nofun⟩

theorem State.Inv.afterLoopStep {s : State} (h : s.Inv) (hr : s.running = true) : (afterLoopStep s).Inv := by
  rcases afterLoopStep_cases s with ⟨_, e⟩ | ⟨_, _, e⟩ | ⟨_, _, e⟩ <;> rw [e]
  · exact h.stopLoop _
  · exact h.stopLoop _
  · simpa only [hr] using h.looping true s.cancelRequested

theorem State.Inv.afterTaking {s : State} (h : s.Inv) : s.afterTaking.Inv :=
  ⟨h.memWf, h.derived, h.histBound, h.histEntries, h.bpSet, h.loopStopped⟩

/-- Every transition keeps the invariants. -/
theorem Transition.inv {turn : Turn} {s t : State} (h : Transition turn s t) (hinv : s.Inv) : t.Inv := by
  cases h with
  | idle => exact hinv
  | answered r => exact hinv.answer r
  | executed hw h0 hp => exact hinv.moved hp h0
  | undone hhist => exact hinv.undone hhist
  | wrote a v => exact hinv.edited (Memory.wf_recompute (Memory.wf_write hinv.memWf a v)) (Memory.derivedOk_recompute _)
  | loaded image cells => exact hinv.edited (Memory.wf_ofImage cells) (Memory.derivedOk_recompute _)
  | registersReset seed cells =>
    exact hinv.edited (Memory.wf_resetRegs hinv.memWf cells) (Memory.derivedOk_recompute _)
  | programReset mode program cells =>
    exact hinv.edited (Memory.wf_resetProg hinv.memWf cells mode) (Memory.derivedOk_resetProg _ cells mode)
  | toggled ha => exact hinv.toggled ha
  | started => exact hinv.looping false false
  | cancelled hr => simpa only [State.withCancel, hr] using hinv.looping s.atDelay true
  | stopped reason => exact hinv.stopLoop reason
  | delayEnded hr => simpa only [hr] using hinv.looping false s.cancelRequested
  | iterated hr hd hw h0 hp => exact (hinv.moved hp h0).afterLoopStep hr

/-- Settles O40: a step is a transition of the turn taken, and every transition keeps the invariants. -/
theorem everyStepKeepsTheInvariant : Obligations.EveryStepKeepsTheInvariant :=
  fun _ _ hinv h => (step_transition h).inv hinv.afterTaking

/-- Settles O38: the created memory is canonical and recomputed, and everything else is empty or clear. -/
theorem resetMeetsTheInvariant : Obligations.ResetMeetsTheInvariant := by
  have created (seed program : List Cell) : (State.created seed program).Inv :=
    ⟨Memory.wf_created seed program, Memory.derivedOk_created seed program, Nat.zero_le _, nofun, ⟨.nil, nofun⟩,
      fun _ => ⟨rfl, rfl⟩⟩
  exact ⟨created _ _, created⟩

/-! The counter. -/

/-- The counter an undo leaves: where the destination was cell 1, the entry recorded that cell twice, so the order of the two
restores does not show (R167). -/
theorem Memory.read_restore_pc (m : Memory) {e : Entry} (he : e.wf) : (m.restore e).read Reg.pc = e.pcBefore.toCell := by
  obtain ⟨_, hpc, _⟩ := he
  rw [Memory.read_restore, derivedCell_of_ne (by decide) (by decide) (by decide) (by decide), if_neg (by decide)]
  split
  next hdst => exact hpc hdst.symm
  next => rfl

/-- Settles O41: a move's counter is reduced modulo 100, a signal leaves it, and an undo restores an address. -/
theorem stepAndUndoKeepTheCounterInRange : Obligations.StepAndUndoKeepTheCounterInRange := by
  refine ⟨fun s t hp h => ?_, fun s t hentries hne h => ?_⟩
  · rcases commandStep_cases s with ⟨_, e⟩ | ⟨_, e⟩ | ⟨w, pc, _, _, _, _, e⟩ <;> cases e.symm.trans h
    · exact hp
    · exact hp
    · change ((s.mem.move _ _).read Reg.pc).val ≤ 99
      rw [Memory.read_move_pc]
      exact nextPc_le _ _
  · rcases commandStepBack_cases s with ⟨hnil, _⟩ | ⟨e, rest, hhist, he⟩
    · exact absurd hnil hne
    · cases he.symm.trans h
      change ((s.mem.restore e).read Reg.pc).val ≤ 99
      rw [Memory.read_restore_pc _ (hentries e (by simp [hhist]))]
      exact Nat.le_of_lt_succ e.pcBefore.isLt

/-- The program reset does not reach the counter (R253). -/
theorem Memory.read_resetProg_pc (m : Memory) (program : List Cell) (mode : ProgMode) :
    (m.resetProg program mode).read Reg.pc = m.read Reg.pc := by
  rw [Memory.read_resetProg_low m program mode (by decide), Memory.read_recompute_pc]

/-- With the counter above 99 nothing is executed, so only a turn that restores or writes cell 1 changes the counter. -/
theorem Transition.pc_of_pcInvalid {turn : Turn} {s t : State} (h : Transition turn s t) (hs : s.pcInvalid) :
    t.pc = s.pc ∨ turn = .stepBack ∨ (∃ a v, turn = .write a v) ∨ (∃ image, turn = .load image) ∨
      ∃ seed, turn = .resetRegs seed := by
  have hnone : s.word? = none := State.word?_eq_none.mpr hs
  cases h with
  | idle | answered | toggled | started | cancelled | stopped | delayEnded => exact .inl rfl
  | executed hw | iterated _ _ hw => cases hnone.symm.trans hw
  | undone => exact .inr (.inl rfl)
  | wrote a v => exact .inr (.inr (.inl ⟨_, _, rfl⟩))
  | loaded image => exact .inr (.inr (.inr (.inl ⟨image, rfl⟩)))
  | registersReset seed => exact .inr (.inr (.inr (.inr ⟨seed, rfl⟩)))
  | programReset mode program cells => exact .inl (s.mem.read_resetProg_pc cells mode)

/-- Settles O26: STEP finds no word to fetch, and any other turn that leaves the counter leaves it above 99. -/
theorem counterAboveNinetyNineOnlySignals : Obligations.CounterAboveNinetyNineOnlySignals := by
  refine ⟨fun s hs => ?_, fun turn s t hs h hnot => ?_⟩
  · rw [commandStep, State.word?_eq_none.mpr hs]
    rfl
  · exact ((takeTurn_transition h).pc_of_pcInvalid hs).resolve_left fun hpc => hnot (by rw [State.pcInvalid, hpc]; exact hs)

/-! The output log. -/

/-- An executed instruction leaves the log, or its destination is OUT and it appends what OUT then holds (R47, R138). -/
theorem State.outLog_moved_cases {s : State} {pc : Addr} (hp : s.pc.val = pc.val) (src dst : Addr) :
    (s.moved pc src dst).outLog = s.outLog ∨ (dst = Reg.out ∧
      (s.moved pc src dst).outLog = s.outLog ++ [(s.moved pc src dst).cell Reg.out] ∧
      (s.moved pc src dst).result = some (.stepped src Reg.out ((s.moved pc src dst).cell Reg.out))) := by
  have effect := State.moved_effect hp src dst
  by_cases hout : dst = Reg.out
  · subst hout
    have hvalue := effect.cell_dst (by decide) (by decide)
    exact .inr ⟨rfl, effect.output.trans (by rw [hvalue]; rfl), effect.answer.trans (by rw [hvalue])⟩
  · exact .inl (effect.output.trans (if_neg hout))

/-- Only an executed instruction with destination OUT changes the log (R47). -/
theorem Transition.outLog_cases {turn : Turn} {s t : State} (h : Transition turn s t) : t.outLog = s.outLog ∨
    ((turn = .step ∨ (turn = .controller ∧ s.running = true ∧ s.atDelay = false)) ∧
      (∃ w : Cell, s.word? = some w ∧ w.val % 100 = 11) ∧ t.outLog = s.outLog ++ [t.cell Reg.out] ∧
      ∃ src : Addr, t.result = some (.stepped src Reg.out (t.cell Reg.out))) := by
  cases h with
  | idle | answered | undone | wrote | loaded | registersReset | programReset | toggled | started | cancelled
  | stopped | delayEnded => exact .inl rfl
  | executed hw h0 hp =>
    refine (State.outLog_moved_cases hp _ _).imp_right fun ⟨hdst, hlog, hres⟩ => ?_
    exact ⟨.inl rfl, ⟨_, hw, congrArg Fin.val hdst⟩, hlog, _, hres⟩
  | iterated hr hd hw h0 hp =>
    rw [afterLoopStep_outLog, cell_afterLoopStep, afterLoopStep_result]
    refine (State.outLog_moved_cases hp _ _).imp_right fun ⟨hdst, hlog, hres⟩ => ?_
    exact ⟨.inr ⟨rfl, hr, hd⟩, ⟨_, hw, congrArg Fin.val hdst⟩, hlog, _, hres⟩

/-- Settles O42: a step is a transition of the turn taken, and taking the turn from the schedule changes nothing else. -/
theorem outputLogOnlyGrowsByInstructions : Obligations.OutputLogOnlyGrowsByInstructions :=
  fun _ _ h => (step_transition h).outLog_cases

/-! The breakpoint set and the controller's fields. -/

theorem Transition.bp_cases {turn : Turn} {s t : State} (h : Transition turn s t) :
    t.bp = s.bp ∨ ∃ a, turn = .toggleBp a := by
  cases h with
  | toggled => exact .inr ⟨_, rfl⟩
  | iterated => exact .inl (afterLoopStep_bp _)
  | _ => exact .inl rfl

/-- Settles O56: the transitions one by one, and an instruction's next state is a move or an answer (R44, R229). -/
theorem onlyToggleChangesBreakpoints : Obligations.OnlyToggleChangesBreakpoints := by
  refine ⟨fun turn s t h => (takeTurn_transition h).bp_cases, fun i s t h => ?_⟩
  rcases exec_next_cases h with ⟨_, rfl⟩ | ⟨pc, a, b, _, _, _, rfl⟩ | ⟨_, rfl⟩
  · exact s.answer_outside _
  · exact s.moved_outside pc a b
  · exact s.answer_outside _

end Sys2Proof.Machine

/-! One instruction (41_step_mov_halt.md): the turn a step takes and the word it runs (R130), the readings of a write to the
counter (R137), the answers of STEP (R134, R150), and what each row of the table does (R137, R140 to R147), each clause one of
the move's. The obligations O7, O8, O9, O11, O12, O13, O14, O16, O18, O19, O20, O22, O23, O24 and O27 are assembled from these. -/

namespace Sys2Proof.Machine

/-! STEP runs the word at the counter. -/

theorem commandStep_of_word {s : State} {w : Cell} (hw : s.word? = some w) : commandStep s = exec (decodeCell w) s := by
  rw [commandStep, hw]

theorem step_of_nil {s : State} (h : s.schedule = []) : step s = takeTurn s.defaultTurn s := by
  rw [step, h]

theorem step_of_cons {s : State} {turn : Turn} {rest : List Turn} (h : s.schedule = turn :: rest) :
    step s = takeTurn turn { s with schedule := rest } := by
  rw [step, h]

theorem State.defaultTurn_of_running {s : State} (h : s.running = true) : s.defaultTurn = .controller := if_pos h

theorem State.defaultTurn_of_stopped {s : State} (h : s.running = false) : s.defaultTurn = .step :=
  if_neg (Bool.eq_false_iff.mp h)

/-- While the loop is stopped the turn STEP runs the word at the counter. -/
theorem takeTurn_step_of_word {s : State} {w : Cell} (h : s.running = false) (hw : s.word? = some w) :
    takeTurn .step s = exec (decodeCell w) s :=
  (whenStopped_of_stopped h _).trans (commandStep_of_word hw)

/-- With no turn scheduled and the loop stopped, a step runs the word at the counter. -/
theorem step_of_word {s : State} {w : Cell} (h : s.running = false) (hq : s.schedule = []) (hw : s.word? = some w) :
    step s = exec (decodeCell w) s := by
  rw [step_of_nil hq, State.defaultTurn_of_stopped h, takeTurn_step_of_word h hw]

/-- Settles O7: the schedule's two cases, and the two default turns. -/
theorem stepRunsTheDecodedInstruction : Obligations.StepRunsTheDecodedInstruction := by
  refine ⟨fun s w => step_of_word, fun s w rest h hq hw => ?_, fun s h hq => ?_, fun s turn rest => step_of_cons⟩
  · rw [step_of_cons hq]
    exact takeTurn_step_of_word (s := { s with schedule := rest }) h hw
  · rw [step_of_nil hq, State.defaultTurn_of_running h]

/-- Placing the word never overwrites the counter that points at it (entry 16). -/
theorem placeAt_ne_pc (s : State) : placeAt s ≠ Reg.pc := by
  unfold placeAt
  split
  · split
    next hout =>
      rintro rfl
      revert hout
      decide
    · decide
  · decide

theorem word?_placeWord (s : State) (w : Cell) : (s.placeWord w).word? = some w := by
  have hpc : (s.placeWord w).pc = (placeAt s).toCell := by
    change (s.placeWord w).mem.read Reg.pc = _
    rw [State.placeWord_mem, Memory.read_write, if_neg (placeAt_ne_pc s).symm, Memory.read_write, if_pos rfl]
  have hcell : (s.placeWord w).cell (placeAt s) = w := by
    change (s.placeWord w).mem.read (placeAt s) = w
    rw [State.placeWord_mem, Memory.read_write, if_pos rfl]
  exact State.word?_eq_some.mpr ⟨placeAt s, congrArg Fin.val hpc, hcell⟩

/-- Settles O8: the placed word is the word at the counter, and the placing stops the loop and empties the schedule. -/
theorem placedWordIsTheNextInstruction : Obligations.PlacedWordIsTheNextInstruction := by
  intro s nbits w
  have hplaced : s.withFetchWord nbits w.val = s.placeWord w := dif_pos w.isLt
  rw [hplaced]
  exact step_of_word (s.placeWord_running w) (s.placeWord_schedule w) (word?_placeWord s w)

/-- Settles O27: the three answers of STEP, whose conditions exclude each other by the word at the counter. -/
theorem stepAnswersOneOfThreeWays : Obligations.StepAnswersOneOfThreeWays := by
  intro s
  rcases commandStep_cases s with ⟨hp, e⟩ | ⟨hw, e⟩ | ⟨w, pc, hw, h0, hp, _, e⟩
  · have hnone : s.word? = none := State.word?_eq_none.mpr hp
    refine ⟨_, e, ?_⟩
    simp [State.halted, hnone, hp, State.answer]
  · have hle : ¬ 99 < s.pc.val := fun h => by cases (State.word?_eq_none.mpr h).symm.trans hw
    refine ⟨_, e, ?_⟩
    simp [State.halted, hw, hle, State.answer]
  · have hle : ¬ 99 < s.pc.val := by omega
    refine ⟨_, e, by simp [hle], by simp [State.halted, hw, h0], fun h => absurd h hle, fun h => ?_, fun v hv _ => ?_⟩
    · exact absurd (Option.some.inj (hw.symm.trans h)) h0
    · obtain rfl : w = v := Option.some.inj (hw.symm.trans hv)
      exact ⟨wordSrc w, wordDst w, rfl, rfl, rfl⟩

/-! The readings of a write to the counter. -/

/-- Settles O12: each reading on a write to cell 1, and the plain advance on a write to another cell. -/
theorem programCounterWriteModes : Obligations.ProgramCounterWriteModes := by
  refine ⟨fun p => ⟨advance_val p, by simp [nextPc], ?_⟩, fun mode dst p hdst => ?_, rfl⟩
  · change (nextPc Config.pcWriteMode Reg.pc p).val = _
    rw [nextPc_pc]
    by_cases hp : p = 0
    · have hz : p.val = 0 := congrArg Fin.val hp
      rw [if_pos hp, if_pos hz]
      rfl
    · rw [if_neg hp, if_neg (Fin.val_ne_zero_iff.mpr hp), advance_val]
  · cases mode with
    | postIncrExceptZero => exact (congrArg Fin.val (nextPc_of_ne hdst p)).trans (advance_val p)
    | postIncrAlways => exact advance_val p
    | noIncr => rw [nextPc, if_neg hdst, advance_val]

/-! The cells after a move, continued. -/

theorem State.word?_of_pc {s : State} {a : Addr} (h : s.pc.val = a.val) : s.word? = some (s.cell a) :=
  State.word?_eq_some.mpr ⟨a, h, rfl⟩

theorem notDerived_of_ge {a : Addr} (h : 8 ≤ a.val) : notDerived a :=
  ⟨fun e => absurd h (e ▸ by decide), fun e => absurd h (e ▸ by decide), fun e => absurd h (e ▸ by decide),
    fun e => absurd h (e ▸ by decide)⟩

theorem ne_pc_of_ge {a : Addr} (h : 8 ≤ a.val) : a ≠ Reg.pc := fun e => absurd h (e ▸ by decide)

theorem MovEffect.pc_val {s t : State} {pc src dst : Addr} (h : MovEffect s t pc src dst) (hdst : dst ≠ Reg.pc) :
    t.pc.val = (pc.val + 1) % 100 :=
  h.counter.trans (if_neg hdst)

/-- A 0 moved to the counter stays 0 there (R137, D2). -/
theorem MovEffect.pc_of_zero {s t : State} {pc src : Addr} (h : MovEffect s t pc src Reg.pc) (h0 : s.cell src = 0) :
    t.pc = 0 := by
  have hz : (s.cell src).val = 0 := congrArg Fin.val h0
  exact Fin.ext (h.counter.trans ((if_pos rfl).trans (if_pos hz)))

/-- A cell moved to itself keeps its content, and so does every other cell but 1 and 4 to 7 (R147). -/
theorem MovEffect.cell_of_same {s t : State} {pc x a : Addr} (h : MovEffect s t pc x x) (hpc : a ≠ Reg.pc)
    (hd : notDerived a) : t.cell a = s.cell a := by
  rw [h.cells a hpc hd]
  split
  next hax => rw [hax]
  next => rfl

/-- Where cells 4 to 7 follow A, B, C before and after, they are as A, B, C are: unchanged if those are (R42). -/
theorem State.cell_eq_of_derivedOk {s t : State} (hs : s.mem.derivedOk) (ht : t.mem.derivedOk)
    (keep : ∀ a, a ≠ Reg.pc → notDerived a → t.cell a = s.cell a) {a : Addr} (ha : a ≠ Reg.pc) :
    t.cell a = s.cell a := by
  have hA : t.mem.read Reg.a = s.mem.read Reg.a := keep Reg.a (by decide) (by decide)
  have hB : t.mem.read Reg.b = s.mem.read Reg.b := keep Reg.b (by decide) (by decide)
  have hC : t.mem.read Reg.c = s.mem.read Reg.c := keep Reg.c (by decide) (by decide)
  obtain ⟨ssum, ssub, scmp, strn⟩ := hs
  obtain ⟨tsum, tsub, tcmp, ttrn⟩ := ht
  rw [hA, hB] at tsum tsub tcmp
  rw [hA, hB, hC] at ttrn
  by_cases h4 : a = Reg.sum
  · subst h4; exact tsum.trans ssum.symm
  by_cases h5 : a = Reg.sub
  · subst h5; exact tsub.trans ssub.symm
  by_cases h6 : a = Reg.cmp
  · subst h6; exact tcmp.trans scmp.symm
  by_cases h7 : a = Reg.trn
  · subst h7; exact ttrn.trans strn.symm
  exact keep a ha ⟨h4, h5, h6, h7⟩

/-! The rows. -/

/-- Settles O9: every row but HALT is the move between its operands. -/
theorem everyMovRowMovesOneCell : Obligations.EveryMovRowMovesOneCell :=
  fun _ _ _ src dst _ hi hp hs hd => ⟨_, exec_of_operands hi hs hd hp, State.moved_effect hp src dst⟩

/-- Settles O11: a move to cell 1 changes no cell outside 1 and 4 to 7, so A, B, C and what follows them are unchanged too. -/
theorem jumpGoesToTheWrittenValuePlusOne : Obligations.JumpGoesToTheWrittenValuePlusOne := by
  intro s pc src hp
  have effect := State.moved_effect hp src Reg.pc
  have keep (a : Addr) (ha : a ≠ Reg.pc) (hd : notDerived a) := effect.cell_of_ne ha ha hd
  exact ⟨_, exec_of_operands nofun rfl rfl hp, effect.counter.trans (if_pos rfl), effect.output.trans (if_neg (by decide)),
    keep, fun hderived _ => State.cell_eq_of_derivedOk hderived effect.derived keep, effect.history, effect.answer,
    effect.outside⟩

/-- Settles O13: the moved 0 stays 0 in the counter, and cell 0 itself is not written. -/
theorem stopWordHaltsAtAddressZero : Obligations.StopWordHaltsAtAddressZero := by
  intro s pc hp h0
  have effect := State.moved_effect hp Reg.halt Reg.pc
  have hcounter := effect.pc_of_zero h0
  have hcell : (s.moved pc Reg.halt Reg.pc).cell Reg.halt = 0 :=
    (effect.cell_of_ne (by decide) (by decide) (by decide)).trans h0
  have hhalted : (s.moved pc Reg.halt Reg.pc).halted := State.word?_eq_some.mpr ⟨Reg.halt, congrArg Fin.val hcounter, hcell⟩
  exact ⟨_, exec_of_operands nofun rfl rfl hp, hcounter, hcell, hhalted, commandStep_of_halted hhalted⟩

/-- Settles O14: cell 9 is moved to itself, which is neither the counter nor OUT. -/
theorem nopOnlyAdvances : Obligations.NopOnlyAdvances := by
  intro s pc hp hderived
  have effect := State.moved_effect hp Reg.tmp Reg.tmp
  exact ⟨_, _, exec_of_operands nofun rfl rfl hp, effect.pc_val (by decide),
    fun _ => State.cell_eq_of_derivedOk hderived effect.derived fun _ => effect.cell_of_same,
    effect.output.trans (if_neg (by decide)), effect.history, rfl, rfl, rfl, effect.outside⟩

/-- A move to a derived cell changes no cell but the counter: recomputing overwrites the value (R140). -/
theorem MovEffect.cell_of_derived_dst {s t : State} {pc src dst : Addr} (h : MovEffect s t pc src dst)
    (hderived : s.mem.derivedOk) (hdst : ¬ notDerived dst) {a : Addr} (ha : a ≠ Reg.pc) : t.cell a = s.cell a :=
  State.cell_eq_of_derivedOk hderived h.derived
    (fun _ hb hd => h.cell_of_ne hb (fun e => hdst (e ▸ hd)) hd) ha

/-- Settles O16: each of the four rows is a move to a derived cell, which is neither the counter nor OUT. -/
theorem derivedDestinationsDiscardTheValue : Obligations.DerivedDestinationsDiscardTheValue := by
  intro s pc src i hp hderived hi
  obtain ⟨dst, hne, hsrc, hd, hdst⟩ : ∃ dst : Addr, i ≠ .halt ∧ i.src = src.val ∧ i.dst = dst.val ∧ ¬ notDerived dst := by
    rcases hi with rfl | rfl | rfl | rfl
    · exact ⟨Reg.sum, nofun, rfl, rfl, by decide⟩
    · exact ⟨Reg.sub, nofun, rfl, rfl, by decide⟩
    · exact ⟨Reg.cmp, nofun, rfl, rfl, by decide⟩
    · exact ⟨Reg.trn, nofun, rfl, rfl, by decide⟩
  have effect := State.moved_effect hp src dst
  have hpc : dst ≠ Reg.pc := fun e => hdst (e ▸ by decide)
  have hout : dst ≠ Reg.out := fun e => hdst (e ▸ by decide)
  exact ⟨_, _, exec_of_operands hne hsrc hd hp, fun _ => effect.cell_of_derived_dst hderived hdst, effect.pc_val hpc,
    effect.output.trans (if_neg hout), effect.history, hd.symm, rfl, effect.outside⟩

/-- Settles O18: the destination holds the value, so where it is the next address the word at the counter is that value. -/
theorem storedWordIsFetchedByTheNextStep : Obligations.StoredWordIsFetchedByTheNextStep := by
  intro s pc src dst hrom hp
  have effect := State.moved_effect hp src dst
  have hpc : dst ≠ Reg.pc := ne_pc_of_ge (by omega)
  have hstored := effect.cell_dst hpc (notDerived_of_ge (by omega))
  have hcounter := effect.pc_val hpc
  refine ⟨_, exec_of_operands nofun rfl rfl hp, hstored, fun _ ha hne hd => effect.cell_of_ne ha hne hd, hcounter,
    fun hnext => ?_⟩
  have hword := (State.word?_of_pc (hcounter.trans hnext.symm)).trans (congrArg some hstored)
  exact ⟨hword, commandStep_of_word hword⟩

/-- Settles O19: cell 0 holds the value, and from 99 the counter comes to 0, where the word is then that value. -/
theorem haltCellIsWrittenLikeAnyOther : Obligations.HaltCellIsWrittenLikeAnyOther := by
  intro s pc src _ hp
  have effect := State.moved_effect hp src Reg.halt
  have hstored := effect.cell_dst (by decide) (by decide)
  have hcounter := effect.pc_val (by decide)
  refine ⟨_, exec_of_operands nofun rfl rfl hp, hstored, fun _ ha hne hd => effect.cell_of_ne ha hne hd, hcounter,
    fun h99 hvalue hhalted => ?_⟩
  rw [h99] at hcounter
  have hword := (State.word?_of_pc (a := Reg.halt) hcounter).trans (congrArg some hstored)
  exact hvalue (Option.some.inj (hword.symm.trans hhalted))

/-- Settles O20: the value moved is the counter's content, the instruction's own address. -/
theorem readingTheCounterGivesTheOwnAddress : Obligations.ReadingTheCounterGivesTheOwnAddress := by
  intro s pc dst hp
  have effect := State.moved_effect hp Reg.pc dst
  have hvalue : s.cell Reg.pc = pc.toCell := Fin.ext hp
  refine ⟨_, exec_of_operands nofun rfl rfl hp, ?_, fun hpc hd => (effect.cell_dst hpc hd).trans hvalue, effect.pc_val,
    fun hpc => ?_⟩
  · rw [effect.answer, hvalue]
  · rw [effect.counter, if_pos hpc, hvalue, Addr.val_toCell]

/-- Settles O22: the value moved is 0, which stays 0 even in the counter; cell 0 itself is not written. -/
theorem movingTheHaltCellClears : Obligations.MovingTheHaltCellClears := by
  intro s pc dst hdst hp h0
  have effect := State.moved_effect hp Reg.halt dst
  refine ⟨_, exec_of_operands nofun rfl rfl hp, fun hd => ?_,
    (effect.cell_of_ne (by decide) hdst.symm (by decide)).trans h0, fun _ ha hne hd => effect.cell_of_ne ha hne hd⟩
  by_cases hpc : dst = Reg.pc
  · subst hpc
    exact effect.pc_of_zero h0
  · exact (effect.cell_dst hpc hd).trans h0

/-- Settles O23: cell 12 is read only, and is the source by which the run loop knows the instruction. -/
theorem inputIsCopiedAndNotConsumed : Obligations.InputIsCopiedAndNotConsumed := by
  intro s pc dst hp
  have effect := State.moved_effect hp Reg.inp dst
  refine ⟨_, exec_of_operands nofun rfl rfl hp, effect.answer, effect.cell_dst, ?_, rfl⟩
  rw [effect.cells Reg.inp (by decide) (by decide), ite_self]

/-- Settles O24: the value moved is the cell's own; it is in the counter for x = 1 and in OUT for x = 11. -/
theorem movingACellToItselfChangesOnlyTheCounter : Obligations.MovingACellToItselfChangesOnlyTheCounter := by
  intro s pc x _ hp hderived
  have effect := State.moved_effect hp x x
  refine ⟨_, _, exec_of_operands nofun rfl rfl hp,
    fun _ => State.cell_eq_of_derivedOk hderived effect.derived fun _ => effect.cell_of_same, ?_, ?_, effect.history, rfl⟩
  · rw [effect.output]
    split
    next hout => rw [hout]
    next => rfl
  · by_cases hpc : x = Reg.pc
    · subst hpc
      have hvalue : (s.cell Reg.pc).val = pc.val := hp
      simp only [effect.counter, hvalue, if_true, true_and]
    · rw [effect.pc_val hpc, if_neg fun h => hpc h.1]

end Sys2Proof.Machine

/-! One undo (42_history_and_undo.md): the three restores of STEP_BACK in any order (R166, R167), and STEP_BACK right after an
executed STEP (R168). The obligations O34 and O35 are assembled from these. -/

namespace Sys2Proof.Machine

/-- The writes of a list made one after another, the first one first. -/
def Memory.writeAll (m : Memory) (writes : List (Addr × Cell)) : Memory :=
  writes.foldl (fun (n : Memory) x => n.write x.1 x.2) m

@[simp] theorem Memory.writeAll_nil (m : Memory) : m.writeAll [] = m := rfl

@[simp] theorem Memory.writeAll_cons (m : Memory) (x : Addr × Cell) (writes : List (Addr × Cell)) :
    m.writeAll (x :: writes) = (m.write x.1 x.2).writeAll writes := rfl

theorem Memory.read_writeAll_of_not_mem {m : Memory} {writes : List (Addr × Cell)} {a : Addr}
    (h : ∀ x ∈ writes, x.1 ≠ a) : (m.writeAll writes).read a = m.read a := by
  induction writes generalizing m with
  | nil => rfl
  | cons x writes ih =>
    have hx : a ≠ x.1 := (h x List.mem_cons_self).symm
    rw [Memory.writeAll_cons, ih fun y hy => h y (List.mem_cons_of_mem _ hy), Memory.read_write, if_neg hx]

/-- Where all writes of a cell write the same value, the cell holds it after them, whatever their order. -/
theorem Memory.read_writeAll_of_mem {m : Memory} {writes : List (Addr × Cell)} {a : Addr} {v : Cell}
    (hmem : (a, v) ∈ writes) (hsame : ∀ x ∈ writes, x.1 = a → x.2 = v) : (m.writeAll writes).read a = v := by
  induction writes generalizing m with
  | nil => cases hmem
  | cons x writes ih =>
    have hsame' : ∀ y ∈ writes, y.1 = a → y.2 = v := fun y hy => hsame y (List.mem_cons_of_mem _ hy)
    rw [Memory.writeAll_cons]
    by_cases hrest : (a, v) ∈ writes
    · exact ih hrest hsame'
    · obtain rfl : (a, v) = x := (List.mem_cons.mp hmem).resolve_right hrest
      rw [Memory.read_writeAll_of_not_mem fun y hy hya => hrest (by rwa [← hya, ← hsame' y hy hya]), Memory.read_write,
        if_pos rfl]

/-- Writes that agree on every cell they share may be made in any order. -/
theorem Memory.read_writeAll_perm {m : Memory} {writes others : List (Addr × Cell)} (hperm : writes.Perm others)
    (hagree : ∀ x ∈ others, ∀ y ∈ others, x.1 = y.1 → x.2 = y.2) (a : Addr) :
    (m.writeAll writes).read a = (m.writeAll others).read a := by
  by_cases ha : ∃ x ∈ others, x.1 = a
  · obtain ⟨x, hx, rfl⟩ := ha
    have hsame : ∀ y ∈ others, y.1 = x.1 → y.2 = x.2 := fun y hy hyx => hagree y hy x hx hyx
    rw [Memory.read_writeAll_of_mem hx hsame,
      Memory.read_writeAll_of_mem (hperm.mem_iff.mpr hx) fun y hy => hsame y (hperm.mem_iff.mp hy)]
  · have hnone : ∀ x ∈ others, x.1 ≠ a := fun x hx hxa => ha ⟨x, hx, hxa⟩
    rw [Memory.read_writeAll_of_not_mem hnone,
      Memory.read_writeAll_of_not_mem fun x hx => hnone x (hperm.mem_iff.mp hx)]

/-- The three writes of an undo, in the order R166 gives them. -/
def Entry.writes (e : Entry) : List (Addr × Cell) :=
  [(Reg.pc, e.pcBefore.toCell), (e.dst, e.valueDstBeforeStep), (Reg.out, e.outBeforeStep)]

theorem Memory.restore_eq_writeAll (m : Memory) (e : Entry) : m.restore e = (m.writeAll e.writes).recompute := rfl

/-- An entry the engine records holds one value for each cell, though it may hold it twice (R167). -/
theorem Entry.writes_agree {e : Entry} (he : e.wf) : ∀ x ∈ e.writes, ∀ y ∈ e.writes, x.1 = y.1 → x.2 = y.2 := by
  obtain ⟨_, hpc, hout⟩ := he
  have hne : Reg.pc ≠ Reg.out := by decide
  have hpairs : e.writes.Pairwise fun x y => x.1 = y.1 → x.2 = y.2 := by
    simp only [Entry.writes, List.pairwise_cons, List.forall_mem_cons, List.not_mem_nil, false_implies, implies_true,
      List.Pairwise.nil, and_true]
    exact ⟨⟨fun h => (hpc h.symm).symm, fun h => absurd h hne⟩, hout⟩
  have hsymm : Std.Symm fun x y : Addr × Cell => x.1 = y.1 → x.2 = y.2 := ⟨fun _ _ h hyx => (h hyx.symm).symm⟩
  exact List.Pairwise.forall_of_forall (fun _ _ _ => rfl) hpairs

theorem Memory.recompute_congr {m n : Memory} (h : ∀ a, m.read a = n.read a) (a : Addr) :
    m.recompute.read a = n.recompute.read a := by
  simp only [Memory.read_recompute, h]

/-- Settles O34: the three writes agree on every cell they share, so their order does not show, before or after recomputing. -/
theorem restoresOfAnUndoCommute : Obligations.RestoresOfAnUndoCommute := by
  intro s rest e writes hhist he hperm
  refine ⟨_, commandStepBack_of_append hhist, fun a => ⟨rfl, ?_, fun ⟨h4, h5, h6, h7⟩ => ?_⟩⟩
  · change (s.mem.restore e).read a = (s.mem.writeAll writes).recompute.read a
    rw [Memory.restore_eq_writeAll]
    exact (Memory.recompute_congr (Memory.read_writeAll_perm hperm (Entry.writes_agree he)) a).symm
  · exact (s.mem.read_restore e a).trans (derivedCell_of_ne h4 h5 h6 h7)

/-- STEP_BACK right after a push takes the pushed entry and leaves the history before it, less an evicted entry (R161, R166). -/
theorem commandStepBack_of_push {s t : State} {e : Entry} (h : t.hist = History.push s.hist e) :
    commandStepBack t = .next { t with
      mem := t.mem.restore e, hist := if s.hist.length = 100 then s.hist.tail else s.hist, result := some .success } :=
  commandStepBack_of_append (h.trans (History.push_eq s.hist e))

/-- An executed instruction touches nothing of the controller's (R44). -/
theorem Executes.outside {s t : State} (h : Executes s t) : s.sameOutside t := by
  have ⟨w, hw, _, _⟩ := h
  obtain ⟨pc, _, rfl⟩ := h.eq_moved hw
  exact s.moved_outside pc _ _

/-- Settles O35: the newest entry is the one the instruction recorded, whose restore gives the memory before it. -/
theorem undoInvertsAnExecutedInstruction : Obligations.UndoInvertsAnExecutedInstruction := by
  intro s t hinv hex
  obtain ⟨_, _, e, hpush, hrestore⟩ := hex.recorded hinv.memWf hinv.derived
  exact ⟨_, commandStepBack_of_push hpush, hrestore, rfl, rfl, rfl, hex.outside⟩

end Sys2Proof.Machine

/-! The host's inputs (43_direct_edit_commands.md, 70_reset_and_hazards.md): a rejected WRITE (R181), a read (R186), LOAD (R184)
and the saved image (R80), RESET_REGS (R252), and the inputs that are refused (R185). The obligations O45, O46, O47, O48, O49 and
O53 are assembled from these. -/

namespace Sys2Proof.Machine

/-- Settles O45: the value is a cell but the address is none, and the policy is to reject. -/
theorem rejectedWriteChangesNothing : Obligations.RejectedWriteChangesNothing := by
  intro s addr v hstopped haddr
  refine (whenStopped_of_stopped hstopped _).trans ?_
  rw [commandWrite, dif_pos v.isLt, addrOf_eq_none.mpr haddr]
  rfl

/-- Settles O53: a read only answers, and it is no manual command, so the run loop need not be stopped. -/
theorem hostReadReturnsTheCell : Obligations.HostReadReturnsTheCell := by
  refine fun s => ⟨fun a => ?_, fun n hn => ?_⟩
  · change commandRead a.val s = _
    rw [commandRead, addrOf_val]
    rfl
  · change commandRead n s = _
    rw [commandRead, addrOf_eq_none.mpr hn]
    rfl

theorem takeTurn_load {s : State} (h : s.running = false) {image : List Cell} (hi : image.length = 100) :
    takeTurn (.load (image.map Fin.val)) s = .next (s.edited (Memory.ofImage image)) :=
  (whenStopped_of_stopped h _).trans (commandLoad_given hi s)

/-- Settles O46: the turn is an edit of the memory, so what is left is its cells. -/
theorem loadReplacesEveryCell : Obligations.LoadReplacesEveryCell := by
  intro s image h hstopped
  refine ⟨_, takeTurn_load hstopped h, fun a ⟨h4, h5, h6, h7⟩ => ?_, Memory.derivedOk_recompute _, s.edited_frame _⟩
  rw [State.cell_edited, Memory.read_ofImage h h4 h5 h6 h7]

theorem Memory.image_length (m : Memory) : m.image.length = 100 := by
  rw [Memory.image, List.length_map, List.length_finRange]

theorem Memory.getElem_image (m : Memory) (a : Addr) (h : a.val < m.image.length) : m.image[a.val] = m.read a := by
  simp only [Memory.image, List.getElem_map, List.getElem_finRange]
  rfl

/-- Writing the saved image to empty memory gives every cell back, and a derived cell follows A, B, C either way (R80). -/
theorem Memory.ofImage_image {m : Memory} (hwf : m.wf) (hd : m.derivedOk) : Memory.ofImage m.image = m := by
  have hcells (a : Addr) : (Memory.writeRange 0 m.image []).read a = m.read a := by
    have hreach : 0 ≤ a.val ∧ a.val - 0 < m.image.length := by rw [Memory.image_length]; omega
    rw [Memory.read_writeRange, dif_pos hreach]
    exact m.getElem_image a hreach.2
  refine Memory.ext_of_wf (Memory.wf_ofImage _) hwf fun a => ?_
  rw [Memory.ofImage, Memory.recompute_congr hcells, Memory.read_recompute_of_derivedOk hd]

/-- Settles O47: a LOAD makes the memory of the image, and the memory's own image makes that memory. -/
theorem loadingTheSavedImageRestoresMemory : Obligations.LoadingTheSavedImageRestoresMemory :=
  fun s hstopped hwf hd => ⟨_, takeTurn_load hstopped s.mem.image_length, Memory.ofImage_image hwf hd, rfl⟩

/-- Settles O48: a value above 9999 is no cell, and one such number, or a wrong length, makes a list no list of cells. -/
theorem inputsThatAreNoCellsAreRefused : Obligations.InputsThatAreNoCellsAreRefused := by
  intro s hstopped
  refine ⟨fun addr value h => ?_, fun image h => ?_, fun seed h => ?_, fun mode program h => ?_⟩ <;>
    refine (whenStopped_of_stopped hstopped _).trans ?_
  · exact dif_neg (by omega)
  · exact commandLoad_refused h s
  · rw [commandResetRegs, cellsOrDefault, cellsOfLength_eq_none h]
  · rw [commandResetProg, cellsOrDefault, cellsOfLength_eq_none h]

/-- After the register reset with the default seed the cells below 50 are those of the created memory (R250, R252). -/
theorem Memory.read_resetRegs_default (m : Memory) {a : Addr} (ha : a.val < 50) :
    (m.resetRegs Config.regSeed).read a = State.reset.cell a := by
  rw [State.reset_cell, Memory.read_created_low _ _ ha]
  exact Memory.read_resetRegs_low_congr m [] regSeed_length ha

/-- Settles O49: the turn is an edit of the memory, so what is left is its cells; with the default seed those below 50 are the
created ones. -/
theorem registerResetWritesTheSeed : Obligations.RegisterResetWritesTheSeed := by
  refine ⟨fun s seed h hstopped => ?_, fun s hstopped => ?_⟩
  · refine ⟨_, takeTurn_resetRegs hstopped h, fun a ha ⟨h4, h5, h6, h7⟩ => ?_, fun a ha => ?_,
      Memory.derivedOk_recompute _, s.edited_frame _⟩
    · rw [State.cell_edited, Memory.read_resetRegs_low _ h ha h4 h5 h6 h7]
    · rw [State.cell_edited, Memory.read_resetRegs_high _ h ha]
      rfl
  · refine ⟨_, (takeTurn_resetRegs_default s).trans (takeTurn_resetRegs hstopped regSeed_length), ?_,
      fun a ha hpc => ?_, fun a ha => ?_, s.edited_frame _⟩
    · rw [State.pc_edited, Memory.read_resetRegs_default _ (by decide)]
      exact State.reset_pc
    · rw [State.cell_edited, Memory.read_resetRegs_default _ ha, State.reset_cell_low ha hpc]
    · rw [State.cell_edited, Memory.read_resetRegs_high _ regSeed_length ha]
      rfl

end Sys2Proof.Machine

/-! The run loop's commands (44_run_controller.md): a rejected TOGGLE_BP (R201), RUN (R202), the controller's moves (R203), and
the manual commands while the loop runs (R207). The obligations O55, O57, O58 and O60 are assembled from these. -/

namespace Sys2Proof.Machine

/-- Settles O55: the other case of TOGGLE_BP needs an address from 50 to 99. -/
theorem breakpointsOutsideProgramCellsAreRejected : Obligations.BreakpointsOutsideProgramCellsAreRejected := by
  intro s addr hout
  rcases commandToggleBp_cases addr s with ⟨a, ha, hge, _⟩ | ⟨_, e⟩
  · omega
  · exact e

/-- Settles O57: RUN tests the run flag and nothing else. -/
theorem runStartsTheLoopAndNothingElse : Obligations.RunStartsTheLoopAndNothingElse :=
  fun _ => ⟨fun hstopped => if_neg (Bool.eq_false_iff.mp hstopped), fun hrunning => if_pos hrunning⟩

theorem whenStopped_of_running {s : State} (h : s.running = true)
    (command : State → Host.Outcome State Fault Refusal) : whenStopped s command = .fault .manualWhileRunning :=
  if_pos h

/-- Settles O60: each of the six is guarded by the same test. -/
theorem manualCommandsWhileRunningHaveNoTransition : Obligations.ManualCommandsWhileRunningHaveNoTransition :=
  fun _ h => ⟨whenStopped_of_running h _, whenStopped_of_running h _, fun _ _ => whenStopped_of_running h _,
    fun _ => whenStopped_of_running h _, fun _ => whenStopped_of_running h _, fun _ _ => whenStopped_of_running h _⟩

theorem takeTurn_controller_of_stopped {s : State} (h : s.running = false) : takeTurn .controller s = .next s :=
  if_neg (Bool.eq_false_iff.mp h)

/-- At the delay boundary with no cancel requested the loop goes on to the next iteration (R203 (e)). -/
theorem takeTurn_controller_of_no_cancel {s : State} (hr : s.running = true) (hd : s.atDelay = true)
    (hc : s.cancelRequested = false) : takeTurn .controller s = .next { s with atDelay := false } := by
  rw [takeTurn_controller_of_atDelay hr hd, delayBoundary, if_neg (Bool.eq_false_iff.mp hc)]

/-- Settles O58: before an iteration, in the delay, and while stopped; an iteration point by point of R203. -/
theorem loopIterationStopsForItsReasons : Obligations.LoopIterationStopsForItsReasons := by
  refine ⟨fun s hr hd => ?_, fun s hr hd => ⟨takeTurn_controller_of_no_cancel hr hd,
    takeTurn_controller_of_cancelRequested hr hd⟩, fun s => takeTurn_controller_of_stopped⟩
  rw [takeTurn_controller_of_not_atDelay hr hd]
  refine ⟨loopIteration_of_pcInvalid, loopIteration_of_halted, fun w hw h0 => ?_⟩
  obtain ⟨pc, hp, hc⟩ := State.word?_eq_some.mp hw
  have hstep := commandStep_of_ne_zero hp hc h0
  have hinput := s.readInput_moved_iff pc (wordDst w) w
  rw [loopIteration_of_step hw h0 hstep]
  refine ⟨_, hstep, fun hbp => ?_, fun hbp hin => ?_, fun hbp hin => ?_⟩
  · rw [afterLoopStep_of_breakpoint hbp]
  · rw [afterLoopStep_of_readInput hbp (hinput.mpr hin)]
  · rw [afterLoopStep_of_delay hbp (mt hinput.mp hin)]

end Sys2Proof.Machine
